-- ==== Sys2Proof/Word.lean ====
section
/-! DEFINITION. The two word types of the block: a register's 32 bits and a buffer's byte. -/

namespace Sys2Proof

/-- The contents of an architected register: 32 bits, unsigned (spec/00_scope.md R7, R11). -/
abbrev Word := BitVec 32

/-- One byte of a buffer, a tag or a frame: 8 bits, unsigned (spec/00_scope.md R11). -/
abbrev Byte := BitVec 8

end Sys2Proof
end

