-- ==== Sys2Proof/Machine/Port.lean ====
section
/-! DEFINITION. The host access port: the names of what it reaches and the transactions it carries
(spec/10_state.md R20, R23; spec/20_memory.md R50 to R53). -/

namespace Sys2Proof.Machine

/-- The three byte arrays of the block (spec/10_state.md R47, spec/20_memory.md R50). -/
inductive Buf where
  | ibuf
  | dbuf
  | obuf
  deriving DecidableEq, Repr

/-- The architected registers of the REG space, one constructor per row of the register map
(spec/10_state.md R23). -/
inductive RegName where
  | cmd
  | status
  | errCode
  | errInfo0
  | errInfo1
  | tagIn
  | inLen
  | tBytes
  | tStatus
  | cLength
  | cType
  | cCrc
  | cStatus
  | outLen
  | cfgIbufSize
  | cfgDbufSize
  | cfgObufSize
  deriving DecidableEq, Repr

/-- A register's byte offset in the REG space (spec/10_state.md R23, first column). -/
def RegName.offset : RegName → Nat
  | .cmd => 0x00
  | .status => 0x04
  | .errCode => 0x08
  | .errInfo0 => 0x0C
  | .errInfo1 => 0x10
  | .tagIn => 0x14
  | .inLen => 0x18
  | .tBytes => 0x1C
  | .tStatus => 0x20
  | .cLength => 0x24
  | .cType => 0x28
  | .cCrc => 0x2C
  | .cStatus => 0x30
  | .outLen => 0x34
  | .cfgIbufSize => 0x38
  | .cfgDbufSize => 0x3C
  | .cfgObufSize => 0x40

/-- The register map as a list, in the order of spec/10_state.md R23. -/
def RegName.all : List RegName :=
  [.cmd, .status, .errCode, .errInfo0, .errInfo1, .tagIn, .inLen, .tBytes, .tStatus, .cLength,
   .cType, .cCrc, .cStatus, .outLen, .cfgIbufSize, .cfgDbufSize, .cfgObufSize]

/-- The register at a REG offset, none at a reserved one (spec/10_state.md R23, R42). -/
def RegName.ofOffset (off : Nat) : Option RegName :=
  RegName.all.find? (fun r => r.offset == off)

/-- What the host takes from the 32 bits a RegRead returns: the whole word, its four characters in
the order [31:24] to [7:0], or one bit (spec/30_encoding.md R78, column "access"). The block does
not see it: it belongs to the accessor's encoding, not to the transaction. -/
inductive View where
  | whole
  | text
  | bit (k : Nat)
  deriving DecidableEq, Repr

/-- One transaction of the access port (spec/10_state.md R20). `width` is the access width in bits:
`BUS_PROTOCOL` may express others than 32, which are not performed (spec/20_memory.md R51). -/
inductive Access where
  | regRead (off width : Nat) (view : View)
  | regWrite (off width : Nat) (v : Word)
  | bufRead (sp : Buf) (i : Nat)
  | bufWrite (sp : Buf) (i : Nat) (b : Byte)
  deriving DecidableEq, Repr

/-- What the decoder reads: a command word the engine has latched (format CMD of
spec/opcode_table.json, spec/30_encoding.md R70), or a transaction of the port (formats REG_READ,
BUF_READ, REG_WRITE and BUF_WRITE, spec/30_encoding.md R78, R79). -/
inductive Code where
  | command (w : Word)
  | access (a : Access)
  deriving DecidableEq, Repr

end Sys2Proof.Machine
end

