-- ==== Sys2Proof/Syntax.lean ====
section
/-! DEFINITION. The instructions: one constructor per row of spec/opcode_table.json, in its order. -/

namespace Sys2Proof

/-- The rows of spec/opcode_table.json. The first eight are commands the engine executes; the others
are transactions of the host access port. -/
inductive Instr where
  /-- NOP, command word 0x00000000 (R153). -/
  | nop
  /-- TAG_FROM_BYTES, command word 0x00000001 (R95). -/
  | tagFromBytes
  /-- TAG_FROM_TEXT, command word 0x00000002 (R96). -/
  | tagFromText
  /-- CHUNK_NEW, command word 0x00000003 (R120). -/
  | chunkNew
  /-- CHUNK_SERIALIZE, command word 0x00000004 (R121). -/
  | chunkSerialize
  /-- CHUNK_PARSE, command word 0x00000005 (R122). -/
  | chunkParse
  /-- CHUNK_TEXT_CHECK, command word 0x00000006 (R124). -/
  | chunkTextCheck
  /-- ILLEGAL, every other command word `w` (R154). -/
  | illegal (w : Word)
  /-- TAG_BYTES, RegRead(0x1C) (R100). -/
  | tagBytes
  /-- TAG_TEXT, RegRead(0x1C) taken as four characters (R101). -/
  | tagText
  /-- TAG_IS_CRITICAL, RegRead(0x20) bit 1 (R102). -/
  | tagIsCritical
  /-- TAG_IS_PUBLIC, RegRead(0x20) bit 2 (R103). -/
  | tagIsPublic
  /-- TAG_IS_RSV_OK, RegRead(0x20) bit 3 (R104). -/
  | tagIsRsvOk
  /-- TAG_IS_SAFE_COPY, RegRead(0x20) bit 4 (R105). -/
  | tagIsSafeCopy
  /-- TAG_IS_VALID, RegRead(0x20) bit 5 (R106). -/
  | tagIsValid
  /-- CHUNK_LENGTH, RegRead(0x24) (R135). -/
  | chunkLength
  /-- CHUNK_TYPE, RegRead(0x28) (R136). -/
  | chunkType
  /-- CHUNK_DATA, BufRead(DBUF, i) (R137). -/
  | chunkData (i : Nat)
  /-- CHUNK_CRC, RegRead(0x2C) (R138). -/
  | chunkCrc
  /-- CHUNK_FLAGS, RegRead(0x30) (R139). -/
  | chunkFlags
  /-- FRAME_READ (R140): RegRead(0x34) for `none`, BufRead(OBUF, i) for `some i`. -/
  | frameRead (i : Option Nat)
  /-- WRITE_CMD, RegWrite(0x00, w) (R150). -/
  | writeCmd (w : Word)
  /-- WRITE_TAG_IN, RegWrite(0x14, v) (R157). -/
  | writeTagIn (v : Word)
  /-- WRITE_IN_LEN, RegWrite(0x18, v) (R158). -/
  | writeInLen (v : Word)
  /-- WRITE_IBUF, BufWrite(IBUF, i, b) (R159). -/
  | writeIbuf (i : Nat) (b : Byte)
  /-- READ_STATUS, RegRead(0x04) (R160). -/
  | readStatus
  /-- READ_ERR_CODE, RegRead(0x08) (R161). -/
  | readErrCode
  /-- READ_ERR_INFO0, RegRead(0x0C) (R161). -/
  | readErrInfo0
  /-- READ_ERR_INFO1, RegRead(0x10) (R161). -/
  | readErrInfo1
  /-- READ_CFG_IBUF_SIZE, RegRead(0x38) (R162). -/
  | readCfgIbufSize
  /-- READ_CFG_DBUF_SIZE, RegRead(0x3C) (R162). -/
  | readCfgDbufSize
  /-- READ_CFG_OBUF_SIZE, RegRead(0x40) (R162). -/
  | readCfgObufSize
  /-- READ_TAG_IN, RegRead(0x14) (R163). -/
  | readTagIn
  /-- READ_IN_LEN, RegRead(0x18) (R163). -/
  | readInLen
  deriving DecidableEq, Repr

end Sys2Proof
end

