-- ==== Sys2Proof/WellFormed.lean ====
section
/-! DEFINITION. Which terms of `Instr` stand for a row of spec/opcode_table.json. -/

namespace Sys2Proof

/-- A command word is legal iff `w[31:8] = 0` and `w[7:0] <= 0x06` (spec/30_encoding.md R72). -/
def legalCommandWord (w : Word) : Bool :=
  w.extractLsb 31 8 == 0#24 && decide (w.extractLsb 7 0 ≤ 0x06#8)

/-- ILLEGAL carries a word no command row matches (spec/43_control.md R154): that is the one operand
the table limits. The index of a buffer access may be any: beyond the buffer the access is not
performed (spec/20_memory.md R52, R53). -/
def Instr.wf : Instr → Bool
  | .nop | .tagFromBytes | .tagFromText | .chunkNew | .chunkSerialize | .chunkParse
  | .chunkTextCheck => true
  | .illegal w => !legalCommandWord w
  | .tagBytes | .tagText | .tagIsCritical | .tagIsPublic | .tagIsRsvOk | .tagIsSafeCopy
  | .tagIsValid | .chunkLength | .chunkType | .chunkData _ | .chunkCrc | .chunkFlags
  | .frameRead _ => true
  | .writeCmd _ | .writeTagIn _ | .writeInLen _ | .writeIbuf _ _ => true
  | .readStatus | .readErrCode | .readErrInfo0 | .readErrInfo1 | .readCfgIbufSize
  | .readCfgDbufSize | .readCfgObufSize | .readTagIn | .readInLen => true

end Sys2Proof
end

