-- ==== Sys2Proof/Decode.lean ====
section
/-! DEFINITION. The decoder, total on every command word and every transaction, and the encoder
after it, both written from the tables of spec/30_encoding.md R71, R78 and R79. -/

namespace Sys2Proof

open Sys2Proof.Machine

/-! ### Command words -/

/-- The command rows as (mask, match, instruction) (spec/30_encoding.md R71, R72). -/
def commandRows : List (Word × Word × Instr) :=
  [(0xFFFFFFFF#32, 0x00000000#32, .nop),
   (0xFFFFFFFF#32, 0x00000001#32, .tagFromBytes),
   (0xFFFFFFFF#32, 0x00000002#32, .tagFromText),
   (0xFFFFFFFF#32, 0x00000003#32, .chunkNew),
   (0xFFFFFFFF#32, 0x00000004#32, .chunkSerialize),
   (0xFFFFFFFF#32, 0x00000005#32, .chunkParse),
   (0xFFFFFFFF#32, 0x00000006#32, .chunkTextCheck)]

/-- The command a word selects: the row that matches it, ILLEGAL where none does. Every word is
exactly one command or illegal (spec/30_encoding.md R72, R73). -/
def decodeCommand (w : Word) : Instr :=
  match commandRows.find? (fun r => w &&& r.1 == r.2.1) with
  | some r => r.2.2
  | none => .illegal w

/-! ### Transactions -/

/-- Why a transaction is no row of the opcode table. None of these stops the machine: the block
performs the transaction by the general rules of its spaces (`Machine.performAccess`). -/
inductive Untabled where
  /-- A REG access that is not 32 bits wide (spec/20_memory.md R51). -/
  | wrongWidth
  /-- A RegRead that reaches no register a row reads, or one taken in a way no row takes it: the read
  of CMD, of T_STATUS whole, of a reserved or misaligned offset (spec/10_state.md R24, R42, R107). -/
  | noReadRow
  /-- A RegWrite to a read-only register or to a reserved or misaligned offset (spec/10_state.md R42). -/
  | noWriteRow
  /-- A BufRead of IBUF, which is no accessor of the source (spec/20_memory.md R52). -/
  | ibufRead
  /-- A BufWrite to DBUF or OBUF, which the host may only read (spec/20_memory.md R53). -/
  | readOnlyBuffer
  deriving DecidableEq, Repr

/-- The REG_READ rows as (offset, what the host takes, instruction) (spec/30_encoding.md R78,
spec/43_control.md R160 to R163; OUT_LEN belongs to FRAME_READ, spec/42_chunk.md R140). -/
def regReadRows : List (Nat × View × Instr) :=
  [(0x1C, .whole, .tagBytes),
   (0x1C, .text, .tagText),
   (0x20, .bit 1, .tagIsCritical),
   (0x20, .bit 2, .tagIsPublic),
   (0x20, .bit 3, .tagIsRsvOk),
   (0x20, .bit 4, .tagIsSafeCopy),
   (0x20, .bit 5, .tagIsValid),
   (0x24, .whole, .chunkLength),
   (0x28, .whole, .chunkType),
   (0x2C, .whole, .chunkCrc),
   (0x30, .whole, .chunkFlags),
   (0x34, .whole, .frameRead none),
   (0x04, .whole, .readStatus),
   (0x08, .whole, .readErrCode),
   (0x0C, .whole, .readErrInfo0),
   (0x10, .whole, .readErrInfo1),
   (0x38, .whole, .readCfgIbufSize),
   (0x3C, .whole, .readCfgDbufSize),
   (0x40, .whole, .readCfgObufSize),
   (0x14, .whole, .readTagIn),
   (0x18, .whole, .readInLen)]

/-- The row of a RegRead (spec/30_encoding.md R78). -/
def decodeRegRead (off : Nat) (view : View) : Except Untabled Instr :=
  match regReadRows.find? (fun r => r.1 == off && r.2.1 == view) with
  | some r => .ok r.2.2
  | none => .error .noReadRow

/-- The row of a RegWrite (spec/30_encoding.md R79). -/
def decodeRegWrite (off : Nat) (v : Word) : Except Untabled Instr :=
  if off = 0x00 then .ok (.writeCmd v)
  else if off = 0x14 then .ok (.writeTagIn v)
  else if off = 0x18 then .ok (.writeInLen v)
  else .error .noWriteRow

/-- The row of a transaction (formats REG_READ, REG_WRITE, BUF_READ, BUF_WRITE of the opcode table). -/
def decodeAccess : Access → Except Untabled Instr
  | .regRead off width view => if width = 32 then decodeRegRead off view else .error .wrongWidth
  | .regWrite off width v => if width = 32 then decodeRegWrite off v else .error .wrongWidth
  | .bufRead .dbuf i => .ok (.chunkData i)
  | .bufRead .obuf i => .ok (.frameRead (some i))
  | .bufRead .ibuf _ => .error .ibufRead
  | .bufWrite .ibuf i b => .ok (.writeIbuf i b)
  | .bufWrite .dbuf _ _ => .error .readOnlyBuffer
  | .bufWrite .obuf _ _ => .error .readOnlyBuffer

/-- The decoder: the instruction a latched command word or a transaction stands for, or why it is no
row of the opcode table. -/
def decode : Code → Except Untabled Instr
  | .command w => .ok (decodeCommand w)
  | .access a => decodeAccess a

/-! ### The encoder -/

/-- The command word or transaction of an instruction (spec/30_encoding.md R71, R78, R79). -/
def encode : Instr → Code
  | .nop => .command 0x00000000#32
  | .tagFromBytes => .command 0x00000001#32
  | .tagFromText => .command 0x00000002#32
  | .chunkNew => .command 0x00000003#32
  | .chunkSerialize => .command 0x00000004#32
  | .chunkParse => .command 0x00000005#32
  | .chunkTextCheck => .command 0x00000006#32
  | .illegal w => .command w
  | .tagBytes => .access (.regRead 0x1C 32 .whole)
  | .tagText => .access (.regRead 0x1C 32 .text)
  | .tagIsCritical => .access (.regRead 0x20 32 (.bit 1))
  | .tagIsPublic => .access (.regRead 0x20 32 (.bit 2))
  | .tagIsRsvOk => .access (.regRead 0x20 32 (.bit 3))
  | .tagIsSafeCopy => .access (.regRead 0x20 32 (.bit 4))
  | .tagIsValid => .access (.regRead 0x20 32 (.bit 5))
  | .chunkLength => .access (.regRead 0x24 32 .whole)
  | .chunkType => .access (.regRead 0x28 32 .whole)
  | .chunkData i => .access (.bufRead .dbuf i)
  | .chunkCrc => .access (.regRead 0x2C 32 .whole)
  | .chunkFlags => .access (.regRead 0x30 32 .whole)
  | .frameRead none => .access (.regRead 0x34 32 .whole)
  | .frameRead (some i) => .access (.bufRead .obuf i)
  | .writeCmd w => .access (.regWrite 0x00 32 w)
  | .writeTagIn v => .access (.regWrite 0x14 32 v)
  | .writeInLen v => .access (.regWrite 0x18 32 v)
  | .writeIbuf i b => .access (.bufWrite .ibuf i b)
  | .readStatus => .access (.regRead 0x04 32 .whole)
  | .readErrCode => .access (.regRead 0x08 32 .whole)
  | .readErrInfo0 => .access (.regRead 0x0C 32 .whole)
  | .readErrInfo1 => .access (.regRead 0x10 32 .whole)
  | .readCfgIbufSize => .access (.regRead 0x38 32 .whole)
  | .readCfgDbufSize => .access (.regRead 0x3C 32 .whole)
  | .readCfgObufSize => .access (.regRead 0x40 32 .whole)
  | .readTagIn => .access (.regRead 0x14 32 .whole)
  | .readInLen => .access (.regRead 0x18 32 .whole)

/-! ### The opcode table's rows -/

/-- The row of an 8-bit REG offset, every operand 0: the first read row of the table at that offset,
else the write row. Rows that share an offset (the views of 0x1C and 0x20, the read and the write of
0x14 and 0x18) cannot be told apart by the offset alone: log entry 8. -/
def accessOfOffset (off : Nat) : Access :=
  match regReadRows.find? (fun r => r.1 == off) with
  | some r => .regRead off 32 r.2.1
  | none => .regWrite off 32 0#32

/-- A row of spec/opcode_table.json as what the decoder reads: 32 bits are a command word, 8 bits the
REG offset of a transaction (the table gives the others no bits). -/
def codeOfTableWord (nbits w : Nat) : Option Code :=
  if nbits = 32 then some (.command (BitVec.ofNat 32 w))
  else if nbits = 8 then some (.access (accessOfOffset (w % 256)))
  else none

/-- The instruction the decoder reads from a row of spec/opcode_table.json. -/
def decodeTableWord (nbits w : Nat) : Option Instr :=
  match codeOfTableWord nbits w with
  | some c =>
    match decode c with
    | .ok i => some i
    | .error _ => none
  | none => none

end Sys2Proof
end

