-- ==== Sys2Proof/Config.lean ====
section
/-! DEFINITION. What one implementation fixes, and the values the spec leaves free.
The free values have no body: nothing can evaluate them, so a claim holds whatever they are. -/

namespace Sys2Proof.Config

/-- The least `IBUF_SIZE` an implementation may have (spec/00_scope.md R8). -/
def minIbufSize : Nat := 12

/-- The greatest `IBUF_SIZE` an implementation may have (spec/00_scope.md R8). -/
def maxIbufSize : Nat := 2 ^ 31

/-- `IBUF_SIZE` of the one implementation that `State.reset` is. DESIGN CHOICE, unsafe (log entry 1):
the spec leaves the parameter open and uses 64 in its own vectors (spec/95_test_vectors.md). The
machine reads its size from State, and `State.resetWith` is the state after reset for every size. -/
def ibufSize : Nat := 64

/-- What the `n`-th unspecified register read draws: all of the value under reset, its fields while
BUSY = 1 (spec/70_reset_and_hazards.md R192, R196;
spec/93_implementation_defined.md U12, U13). A free value: log entry 3. -/
opaque freeWord : Nat → Word

/-- The value the `n`-th unspecified buffer read returns (spec/20_memory.md R53,
spec/70_reset_and_hazards.md R192, R196; U11 to U13). A free value: log entry 3. -/
opaque freeByte : Nat → Byte

/-- The byte drawn at reset number `epoch` for index `i` of a buffer and kept until it is written
(spec/10_state.md R48, spec/70_reset_and_hazards.md R190, U10). A free value: log entry 2; host reads of
DBUF and OBUF do not use it (log entry 16). -/
opaque unwrittenByte : (epoch : Nat) → Machine.Buf → (i : Nat) → Byte

end Sys2Proof.Config
end

