-- ==== Sys2Proof/Machine/State.lean ====
section
/-! DEFINITION. The state of the block and of its access port, the outcomes of a command, and the
state after reset. -/

namespace Sys2Proof.Machine

/-- There is no fault. Every transaction and every command of the block ends in a next state: an error
is recorded in ERR_CODE, a transaction that cannot be performed is dropped or reads 0
(spec/60_exceptions.md R177, spec/20_memory.md R51 to R53). So the type has no constructor. -/
inductive Fault where
  deriving DecidableEq, Repr

/-- A step without a meaning. -/
inductive Refusal where
  /-- Raised by `exec` alone, for an instruction whose meaning is not written. Safe: the machine stops.
  No arm raises it now. -/
  | notModelled (mnemonic : String)
  deriving DecidableEq, Repr

/-- The four fields of STATUS; bits 31:4 read 0 (spec/10_state.md R25). -/
structure Status where
  busy : Bool
  done : Bool
  err : Bool
  ovr : Bool
  deriving DecidableEq, Repr

/-- A byte array as (index, byte) pairs, indices strictly rising: the bytes that have been written.
A byte that is not listed has no value of its own; what reading it gives is said by `State.byteAt`. -/
abbrev Memory := List Host.Cell

/-- What the last read transaction returned on the access port, with what the host takes from it
(spec/10_state.md R20: `RegRead(off) -> v32`, `BufRead(SPACE, i) -> byte`). -/
inductive Reply where
  | none
  | word (v : Word) (view : View)
  | byte (b : Byte)
  deriving DecidableEq, Repr

/-- What arrives at the block, one entry a step, in the order of spec/20_memory.md R62. -/
inductive Input where
  /-- A transaction of the host. -/
  | access (a : Access)
  /-- The running command completes here, between the transactions before and after it
  (spec/43_control.md R151). Nothing happens if none is running. -/
  | engine
  /-- The host polls STATUS until BUSY = 0; `polls` reads still find BUSY = 1 before the running command
  completes (spec/30_encoding.md R84, spec/70_reset_and_hazards.md R201). -/
  | wait (polls : Nat)
  /-- The level the reset pin takes (spec/10_state.md R20, spec/70_reset_and_hazards.md R190). -/
  | rst (level : Bool)
  deriving DecidableEq, Repr

/-- The errors a command can record (spec/60_exceptions.md R170). `maxLength` and `invalidChunkData`
are assigned there and never produced (spec/42_chunk.md R123). -/
inductive ErrorCode where
  | badByte
  | badLength
  | readError
  | maxLength
  | invalidChunkType
  | invalidChunkData
  | invalidCrc
  | textDecode
  | illegalCommand
  | noTag
  | noChunk
  deriving DecidableEq, Repr

/-- The register and buffer writes of a command, held back until it completes: the shadow copies of
spec/10_state.md R46 (spec/30_encoding.md R74, column "writes on success"). -/
inductive Writes where
  | nothing
  /-- T_BYTES and T_STATUS.T_VALID. -/
  | tag (t : Word)
  /-- C_LENGTH, C_TYPE, C_CRC, DBUF[0..len) and C_STATUS.C_VALID. -/
  | chunk (length type crc : Word) (data : List Byte)
  /-- OUT_LEN and OBUF[0..len). -/
  | frame (outLen : Word) (bytes : List Byte)
  deriving DecidableEq, Repr

/-- How a command ends: `finish`, with its writes, or `raise E(info0, info1)` (spec/00_scope.md R13). -/
inductive CmdResult where
  | finish (writes : Writes)
  | raise (e : ErrorCode) (info0 info1 : Word)
  deriving DecidableEq, Repr

/-- The block, the engine, the access port and the two counters that number the free values.
INVENTORY.md lists each field with its rule and its reset value. -/
structure State where
  /-- STATUS (R25). -/
  status : Status
  /-- ERR_CODE (R30). -/
  errCode : Word
  /-- ERR_INFO0 (R31). -/
  errInfo0 : Word
  /-- ERR_INFO1 (R31). -/
  errInfo1 : Word
  /-- TAG_IN (R32). -/
  tagIn : Word
  /-- IN_LEN (R33). -/
  inLen : Word
  /-- T_BYTES (R34). -/
  tBytes : Word
  /-- T_STATUS.T_VALID (R35); the other bits of T_STATUS are functions of T_BYTES. -/
  tValid : Bool
  /-- C_LENGTH (R36). -/
  cLength : Word
  /-- C_TYPE (R37). -/
  cType : Word
  /-- C_CRC (R38). -/
  cCrc : Word
  /-- C_STATUS.C_VALID (R39); the other bits of C_STATUS are functions of C_TYPE. -/
  cValid : Bool
  /-- OUT_LEN (R40). -/
  outLen : Word
  /-- CFG_IBUF_SIZE, the parameter `IBUF_SIZE` of this block (R8, R41); CFG_DBUF_SIZE and CFG_OBUF_SIZE
  are functions of it (R9). Nothing writes it. -/
  cfgIbufSize : Word
  /-- IBUF (R47). -/
  ibuf : Memory
  /-- DBUF (R47). -/
  dbuf : Memory
  /-- OBUF (R47). -/
  obuf : Memory
  /-- The hidden accepted command word, none while no command is running (R46, R150). -/
  running : Option Word
  /-- The level of the reset pin (R20). -/
  rst : Bool
  /-- What has yet to arrive at the block (R17, R62). -/
  inputs : List Input
  /-- What the last read returned (R20). -/
  reply : Reply
  /-- The model's own: how many unspecified reads there have been; numbers `Config.freeWord` and
  `Config.freeByte`. -/
  draws : Nat
  /-- The model's own: how many resets there have been; numbers the draws of `Config.unwrittenByte`. -/
  epoch : Nat
  deriving DecidableEq, Repr

/-- The block right after reset, for each value of its parameter `IBUF_SIZE` (spec/10_state.md R48,
spec/70_reset_and_hazards.md R190): no command running, nothing written in any buffer, and nothing
yet arrived. -/
def State.resetWith (size : Nat) : State where
  status := ⟨false, false, false, false⟩
  errCode := 0#32
  errInfo0 := 0#32
  errInfo1 := 0#32
  tagIn := 0#32
  inLen := 0#32
  tBytes := 0#32
  tValid := false
  cLength := 0#32
  cType := 0#32
  cCrc := 0#32
  cValid := false
  outLen := 0#32
  cfgIbufSize := BitVec.ofNat 32 size
  ibuf := []
  dbuf := []
  obuf := []
  running := none
  rst := false
  inputs := []
  reply := .none
  draws := 0
  epoch := 0

/-- The machine right after reset: the block of size `Config.ibufSize` (log entry 1). -/
def State.reset : State := State.resetWith Config.ibufSize

end Sys2Proof.Machine
end

