-- ==== Sys2Proof/Machine/Operands.lean ====
section
/-! DEFINITION. Operand forms: the big-endian packing of four bytes, slices of byte sequences, the
sizes of the buffers, and what the host takes from a value read. -/

namespace Sys2Proof.Machine

/-- `BE32(b0,b1,b2,b3)`, position 0 most significant (spec/00_scope.md R12). -/
def be32 (b0 b1 b2 b3 : Byte) : Word := b0 ++ b1 ++ b2 ++ b3

/-- Byte `k` of a word in big-endian order: `v[31-8k : 24-8k]` (spec/30_encoding.md R74). -/
def wordByte (v : Word) (k : Nat) : Byte := v.extractLsb' (24 - 8 * k) 8

/-- `BYTES_BE32(v)` (spec/00_scope.md R12). -/
def bytesBE32 (v : Word) : List Byte := [wordByte v 0, wordByte v 1, wordByte v 2, wordByte v 3]

/-- `zext_32` of a byte (spec/00_scope.md R13). -/
def zextByte (b : Byte) : Word := b.zeroExtend 32

/-- The 32-bit register value of a byte count (spec/00_scope.md R13, `zext_32`; R8 keeps it below 2^32). -/
def countWord (n : Nat) : Word := BitVec.ofNat 32 n

/-- `s[i..i+n)`: the `n` bytes at index `i` (spec/00_scope.md R12). -/
def slice (s : List Byte) (i n : Nat) : List Byte := (s.drop i).take n

/-- The 4 bytes at index `i` of a sequence as a word, `BE32(s[i..i+4))`. Its callers have tested that
the 4 bytes are there. -/
def be32At (s : List Byte) (i : Nat) : Word :=
  be32 (s.getD i 0#8) (s.getD (i + 1) 0#8) (s.getD (i + 2) 0#8) (s.getD (i + 3) 0#8)

/-- `IBUF_SIZE` in bytes (spec/00_scope.md R8). -/
def State.ibufSize (s : State) : Nat := s.cfgIbufSize.toNat

/-- The size of a buffer in bytes: `DBUF_SIZE = IBUF_SIZE`, `OBUF_SIZE = IBUF_SIZE + 12`
(spec/00_scope.md R9). -/
def State.bufSize (s : State) : Buf → Nat
  | .ibuf => s.ibufSize
  | .dbuf => s.ibufSize
  | .obuf => s.ibufSize + 12

/-- What IN_LEN stores when `v` is written: `min(v, IBUF_SIZE)` (spec/10_state.md R33). -/
def State.clampLen (s : State) (v : Word) : Word := if v ≤ s.cfgIbufSize then v else s.cfgIbufSize

/-- The value an accessor gives the host: a word, a byte, one flag or four characters
(spec/30_encoding.md R78). -/
inductive Value where
  | none
  | word (v : Word)
  | byte (b : Byte)
  | flag (b : Bool)
  | text (c0 c1 c2 c3 : Char)
  deriving DecidableEq, Repr

/-- The character with a byte's code (spec/40_typetag.md R101, `chr`). -/
def charOf (b : Byte) : Char := Char.ofNat b.toNat

/-- What the host takes from a word it has read (spec/30_encoding.md R78, spec/40_typetag.md R101). -/
def View.take (view : View) (v : Word) : Value :=
  match view with
  | .whole => .word v
  | .text =>
    .text (charOf (wordByte v 0)) (charOf (wordByte v 1)) (charOf (wordByte v 2))
      (charOf (wordByte v 3))
  | .bit k => .flag (v.getLsbD k)

/-- The accessor's value that a read transaction gave the host. -/
def Reply.value (r : Reply) : Value :=
  match r with
  | .none => .none
  | .word v view => view.take v
  | .byte b => .byte b

end Sys2Proof.Machine
end

