-- ==== Sys2Proof/Machine/Crc.lean ====
section
/-! DEFINITION. The CRC-32/ISO-HDLC unit, bit by bit as spec/41_crc32.md R112 gives it. -/

namespace Sys2Proof.Machine

/-- One of the 8 repeats of R112: shift right, and XOR 0xEDB88320 if the bit shifted out is 1. -/
def crcBit (c : Word) : Word :=
  if c.getLsbD 0 then (c >>> 1) ^^^ 0xEDB88320#32 else c >>> 1

/-- The repeat of R112, `n` times. -/
def crcBits : Nat → Word → Word
  | 0, c => c
  | n + 1, c => crcBits n (crcBit c)

/-- The running value after one more byte (R112). -/
def crcByte (c : Word) (b : Byte) : Word := crcBits 8 (c ^^^ zextByte b)

/-- `CRC32(s)`: the running value starts at 0xFFFFFFFF and is XORed with 0xFFFFFFFF at the end
(spec/41_crc32.md R111, R112, R116). -/
def crc32 (s : List Byte) : Word := s.foldl crcByte 0xFFFFFFFF#32 ^^^ 0xFFFFFFFF#32

/-- A chunk's checksum: over the 4 tag bytes in position order, then the payload
(spec/41_crc32.md R113). -/
def chunkCrc (type : Word) (data : List Byte) : Word := crc32 (bytesBE32 type ++ data)

end Sys2Proof.Machine
end

