-- ==== Sys2Proof/Machine/Flags.lean ====
section
/-! DEFINITION. Every flag computation of the spec: the tag's case-bit flags, the words of STATUS,
T_STATUS and C_STATUS, and the numbers of the error codes. -/

namespace Sys2Proof.Machine

/-- `IsAlpha(b)`: an ASCII letter (spec/00_scope.md R14). -/
def isAlpha (b : Byte) : Bool :=
  (decide (0x41#8 ≤ b) && decide (b ≤ 0x5A#8)) || (decide (0x61#8 ≤ b) && decide (b ≤ 0x7A#8))

/-- `CaseBit(b) = b[5]` (spec/40_typetag.md R90). -/
def caseBit (b : Byte) : Bool := b.getLsbD 5

/-- `Critical(t)`: byte 0 has case bit 0 (spec/40_typetag.md R91). -/
def critical (t : Word) : Bool := !caseBit (wordByte t 0)

/-- `Public(t)`: byte 1 has case bit 0 (spec/40_typetag.md R91). -/
def publicTag (t : Word) : Bool := !caseBit (wordByte t 1)

/-- `RsvOk(t)`: byte 2 has case bit 0 (spec/40_typetag.md R91). -/
def rsvOk (t : Word) : Bool := !caseBit (wordByte t 2)

/-- `SafeToCopy(t)`: byte 3 has case bit 1, the inverted polarity (spec/40_typetag.md R91;
spec/90_conflicts.md C2). -/
def safeToCopy (t : Word) : Bool := caseBit (wordByte t 3)

/-- All four bytes of a packed tag are letters: the tag can be constructed (spec/40_typetag.md R95). -/
def allAlpha (t : Word) : Bool := (bytesBE32 t).all isAlpha

/-- `TagOk(t)`: RsvOk and all 4 bytes `IsAlpha` (spec/40_typetag.md R92). -/
def tagOk (t : Word) : Bool := rsvOk t && allAlpha t

/-- `TagCheck(t)`: the byte that is no letter at the lowest position, none if all are
(spec/40_typetag.md R93). -/
def tagCheck (t : Word) : Option Byte := (bytesBE32 t).find? (fun b => !isAlpha b)

/-- One flag as bit 0 of a word. -/
def flagWord (b : Bool) : Word := (BitVec.ofBool b).zeroExtend 32

/-- The word of STATUS: BUSY, DONE, ERR, OVR in bits 0 to 3, the rest 0 (spec/10_state.md R25). -/
def Status.toWord (st : Status) : Word :=
  flagWord st.busy ||| flagWord st.done <<< 1 ||| flagWord st.err <<< 2 ||| flagWord st.ovr <<< 3

/-- The layout T_STATUS and C_STATUS share: VALID, then the flags of a tag, gated by VALID
(spec/10_state.md R35, R39; spec/40_typetag.md R107; spec/42_chunk.md R139). -/
def tagStatusWord (valid : Bool) (t : Word) : Word :=
  if valid then
    flagWord true ||| flagWord (critical t) <<< 1 ||| flagWord (publicTag t) <<< 2 |||
      flagWord (rsvOk t) <<< 3 ||| flagWord (safeToCopy t) <<< 4 ||| flagWord (tagOk t) <<< 5
  else 0#32

/-- The number of an error code (spec/60_exceptions.md R170). -/
def ErrorCode.number : ErrorCode → Word
  | .badByte => 0x01#32
  | .badLength => 0x02#32
  | .readError => 0x03#32
  | .maxLength => 0x04#32
  | .invalidChunkType => 0x05#32
  | .invalidChunkData => 0x06#32
  | .invalidCrc => 0x07#32
  | .textDecode => 0x08#32
  | .illegalCommand => 0x10#32
  | .noTag => 0x11#32
  | .noChunk => 0x12#32

end Sys2Proof.Machine
end

