-- ==== Sys2Proof/Machine/Ops.lean ====
section
/-! DEFINITION. The named operations the meanings share: memory, the register map, the four
transactions of the access port, command acceptance, command completion with its error path, and
reset. -/

namespace Sys2Proof.Machine

/-! ### Memory -/

/-- The byte listed at an index, none if none is. -/
def Memory.read? (m : Memory) (a : Nat) : Option Byte :=
  match m with
  | [] => none
  | c :: rest => if c.1 = a then some c.2 else Memory.read? rest a

/-- The memory with byte `b` at index `a`; the indices stay strictly rising. -/
def Memory.write (m : Memory) (a : Nat) (b : Byte) : Memory :=
  match m with
  | [] => [(a, b)]
  | c :: rest =>
    if a < c.1 then (a, b) :: c :: rest
    else if a = c.1 then (a, b) :: rest
    else c :: Memory.write rest a b

/-- The memory that lists exactly a sequence of bytes, from index `i` on. -/
def Memory.ofBytesFrom (i : Nat) : List Byte → Memory
  | [] => []
  | b :: bs => (i, b) :: Memory.ofBytesFrom (i + 1) bs

/-- The memory that lists exactly a sequence of bytes at indices 0 on: what a command leaves in DBUF or
OBUF, the bytes above it being unspecified from then on (spec/42_chunk.md R120, R121). -/
def Memory.ofBytes (bs : List Byte) : Memory := Memory.ofBytesFrom 0 bs

/-- The canonical form: the indices are strictly rising. No entry can equal what an index that is not
listed holds, which is no value. -/
def Memory.wf : Memory → Bool
  | [] => true
  | [_] => true
  | c :: d :: rest => decide (c.1 < d.1) && Memory.wf (d :: rest)

/-- The memory of a buffer. -/
def State.mem (s : State) : Buf → Memory
  | .ibuf => s.ibuf
  | .dbuf => s.dbuf
  | .obuf => s.obuf

/-- Byte `i` of a buffer as the commands and the defined host reads see it: the byte last written there,
or the one drawn at the last reset (spec/10_state.md R48, spec/70_reset_and_hazards.md R190; log entry 2). -/
def State.byteAt (s : State) (sp : Buf) (i : Nat) : Byte :=
  (Memory.read? (s.mem sp) i).getD (Config.unwrittenByte s.epoch sp i)

/-- `MemRead(SPACE, i, n)`, the commands' access to the buffers (spec/00_scope.md R13). -/
def State.memRead (s : State) (sp : Buf) (i n : Nat) : List Byte :=
  (List.range n).map (fun k => s.byteAt sp (i + k))

/-! ### Free values -/

/-- An unspecified register read under reset: the next free word, the counter advanced
(spec/93_implementation_defined.md U13; log entry 10). -/
def State.drawWord (s : State) : Word × State := (Config.freeWord s.draws, { s with draws := s.draws + 1 })

/-- An unspecified buffer read: the next free byte, the counter advanced (U11 to U13). -/
def State.drawByte (s : State) : Byte × State := (Config.freeByte s.draws, { s with draws := s.draws + 1 })

/-! ### Registers -/

/-- A register's value as its row of the map gives it; a read of CMD returns 0 (spec/10_state.md R23,
R24, R35, R39, R41). -/
def regWord (r : RegName) (s : State) : Word :=
  match r with
  | .cmd => 0#32
  | .status => s.status.toWord
  | .errCode => s.errCode
  | .errInfo0 => s.errInfo0
  | .errInfo1 => s.errInfo1
  | .tagIn => s.tagIn
  | .inLen => s.inLen
  | .tBytes => s.tBytes
  | .tStatus => tagStatusWord s.tValid s.tBytes
  | .cLength => s.cLength
  | .cType => s.cType
  | .cCrc => s.cCrc
  | .cStatus => tagStatusWord s.cValid s.cType
  | .outLen => s.outLen
  | .cfgIbufSize => s.cfgIbufSize
  | .cfgDbufSize => s.cfgIbufSize
  | .cfgObufSize => s.cfgIbufSize + 12#32

/-- The registers whose reads are unspecified while BUSY = 1 (spec/70_reset_and_hazards.md R196). -/
def RegName.undefinedWhileBusy : RegName → Bool
  | .errCode | .errInfo0 | .errInfo1 | .tBytes | .tStatus | .cLength | .cType | .cCrc | .cStatus
  | .outLen => true
  | .cmd | .status | .tagIn | .inLen | .cfgIbufSize | .cfgDbufSize | .cfgObufSize => false

/-- The bits of a register that are no reserved bits; the reserved ones read 0, busy or not
(spec/10_state.md R24, R25, R30, R35, R39, R42; spec/93_implementation_defined.md U20). -/
def RegName.fieldMask : RegName → Word
  | .cmd => 0#32
  | .status => 0xF#32
  | .errCode => 0xFF#32
  | .tStatus | .cStatus => 0x3F#32
  | .errInfo0 | .errInfo1 | .tagIn | .inLen | .tBytes | .cLength | .cType | .cCrc | .outLen
  | .cfgIbufSize | .cfgDbufSize | .cfgObufSize => 0xFFFFFFFF#32

/-- An unspecified read of one register: the next free word in its fields, 0 in its reserved bits, the
counter advanced (spec/70_reset_and_hazards.md R196, spec/93_implementation_defined.md U12, U20). -/
def State.drawReg (r : RegName) (s : State) : Word × State :=
  (Config.freeWord s.draws &&& r.fieldMask, { s with draws := s.draws + 1 })

/-- The register an access reaches: 32 bits wide, at a multiple of 4 below 0x100, and not reserved
(spec/20_memory.md R51, spec/10_state.md R42). -/
def regReached (off width : Nat) : Option RegName :=
  if width = 32 ∧ off % 4 = 0 ∧ off < 0x100 then RegName.ofOffset off else none

/-- A write was dropped because BUSY = 1 (spec/43_control.md R156). -/
def State.setOvr (s : State) : State := { s with status := { s.status with ovr := true } }

/-- Command acceptance: the word is latched, BUSY is set, DONE, ERR and OVR are cleared
(spec/43_control.md R150). -/
def State.accept (w : Word) (s : State) : State :=
  { s with running := some w, status := ⟨true, false, false, false⟩ }

/-! ### The transactions of the access port -/

/-- The value a RegRead returns and the state after it. Under reset every read is unspecified
(R192); while BUSY = 1 the fields of the result registers are (R196), their reserved bits reading 0 as
ever (spec/10_state.md R42); an access that reaches no register returns 0 (spec/20_memory.md R51, R42).
No read changes the block (R59). -/
def regRead (off width : Nat) (s : State) : Word × State :=
  if s.rst then s.drawWord
  else
    match regReached off width with
    | none => (0#32, s)
    | some r => if s.status.busy && r.undefinedWhileBusy then s.drawReg r else (regWord r s, s)

/-- The value a BufRead returns and the state after it (spec/20_memory.md R52, R53; under reset R192;
while BUSY = 1 R196). DESIGN CHOICE, safe (log entry 16): a byte in range of DBUF while C_VALID = 0 or at
C_LENGTH and above, and of OBUF at OUT_LEN and above, is drawn afresh at each read, as
spec/93_implementation_defined.md U11 allows, also before the first commit since reset, where
spec/70_reset_and_hazards.md R190, spec/10_state.md R48 and U10 would keep the byte drawn at reset. -/
def bufRead (sp : Buf) (i : Nat) (s : State) : Byte × State :=
  if s.rst then s.drawByte
  else if s.bufSize sp ≤ i then (0#8, s)
  else
    match sp with
    | .ibuf => (s.byteAt .ibuf i, s)
    | .dbuf =>
      if s.status.busy then s.drawByte
      else if s.cValid && decide (i < s.cLength.toNat) then (s.byteAt .dbuf i, s)
      else s.drawByte
    | .obuf =>
      if s.status.busy then s.drawByte
      else if i < s.outLen.toNat then (s.byteAt .obuf i, s)
      else s.drawByte

/-- A RegWrite: CMD is accepted as a command, TAG_IN and IN_LEN are stored, each dropped with OVR set
while BUSY = 1; every other write is dropped (spec/43_control.md R150, R156 to R158; spec/10_state.md
R42; spec/20_memory.md R51; under reset spec/70_reset_and_hazards.md R192). -/
def regWrite (off width : Nat) (v : Word) (s : State) : State :=
  if s.rst then s
  else
    match regReached off width with
    | some .cmd => if s.status.busy then s.setOvr else s.accept v
    | some .tagIn => if s.status.busy then s.setOvr else { s with tagIn := v }
    | some .inLen => if s.status.busy then s.setOvr else { s with inLen := s.clampLen v }
    | _ => s

/-- A BufWrite: only IBUF can be written, below its size, while BUSY = 0 (spec/43_control.md R159,
spec/20_memory.md R52, R53). -/
def bufWrite (sp : Buf) (i : Nat) (b : Byte) (s : State) : State :=
  if s.rst then s
  else
    match sp with
    | .ibuf =>
      if s.ibufSize ≤ i then s
      else if s.status.busy then s.setOvr
      else { s with ibuf := Memory.write s.ibuf i b }
    | .dbuf => s
    | .obuf => s

/-- A RegRead whose value reaches the host. -/
def hostRegRead (off width : Nat) (view : View) (s : State) : State :=
  { (regRead off width s).2 with reply := .word (regRead off width s).1 view }

/-- A BufRead whose value reaches the host. -/
def hostBufRead (sp : Buf) (i : Nat) (s : State) : State :=
  { (bufRead sp i s).2 with reply := .byte (bufRead sp i s).1 }

/-- Any transaction, a row of the opcode table or not (spec/10_state.md R20, spec/20_memory.md R51 to R53). -/
def performAccess (a : Access) (s : State) : State :=
  match a with
  | .regRead off width view => hostRegRead off width view s
  | .regWrite off width v => regWrite off width v s
  | .bufRead sp i => hostBufRead sp i s
  | .bufWrite sp i b => bufWrite sp i b s

/-! ### Command completion -/

/-- A finished command's writes become visible, all at once (spec/43_control.md R151). DBUF and OBUF list
only the new bytes from then on: those above are unspecified (spec/42_chunk.md R120, R121). -/
def applyWrites (ws : Writes) (s : State) : State :=
  match ws with
  | .nothing => s
  | .tag t => { s with tBytes := t, tValid := true }
  | .chunk length type crc data =>
    { s with cLength := length, cType := type, cCrc := crc, cValid := true,
             dbuf := Memory.ofBytes data }
  | .frame outLen bytes => { s with outLen := outLen, obuf := Memory.ofBytes bytes }

/-- Completion without error (spec/43_control.md R151). -/
def finishCommand (ws : Writes) (s : State) : State :=
  { applyWrites ws s with
      errCode := 0#32, errInfo0 := 0#32, errInfo1 := 0#32, running := none,
      status := ⟨false, true, false, s.status.ovr⟩ }

/-- Completion with an error: the command's writes are discarded, the code and its two diagnostic words
are recorded (spec/43_control.md R151, spec/60_exceptions.md R173, R177). It is the block's only
exception entry: no control is transferred, and there is no return (R178). -/
def raiseError (e : ErrorCode) (info0 info1 : Word) (s : State) : State :=
  { s with
      errCode := e.number, errInfo0 := info0, errInfo1 := info1, running := none,
      status := ⟨false, true, true, s.status.ovr⟩ }

/-- Command completion (spec/43_control.md R151). -/
def complete (r : CmdResult) (s : State) : State :=
  match r with
  | .finish ws => finishCommand ws s
  | .raise e info0 info1 => raiseError e info0 info1 s

/-! ### Reset -/

/-- `rst` is asserted: every register takes its reset value, a running command is abandoned, and each
buffer byte is drawn anew (spec/70_reset_and_hazards.md R190, R191, spec/10_state.md R48). What the
host has been told and has yet to send is no state of the block. -/
def assertReset (s : State) : State :=
  { State.resetWith s.ibufSize with
      cfgIbufSize := s.cfgIbufSize, rst := true, inputs := s.inputs, reply := s.reply,
      draws := s.draws, epoch := s.epoch + 1 }

/-- `rst` is deasserted: the block goes on from its reset state (spec/70_reset_and_hazards.md R192). -/
def deassertReset (s : State) : State := { s with rst := false }

/-- The reset pin takes a level. -/
def setReset (level : Bool) (s : State) : State := if level then assertReset s else deassertReset s

end Sys2Proof.Machine
end

