-- ==== Sys2Proof/Machine/Utf8.lean ====
section
/-! DEFINITION. UTF-8 well-formedness: the table and the scan of spec/42_chunk.md R125. -/

namespace Sys2Proof.Machine

/-- A closed range of byte values. -/
structure ByteRange where
  lo : Byte
  hi : Byte
  deriving DecidableEq, Repr

/-- The byte lies in the range. -/
def ByteRange.has (r : ByteRange) (b : Byte) : Bool := decide (r.lo ≤ b) && decide (b ≤ r.hi)

/-- The range of an ordinary continuation byte. -/
def contRange : ByteRange := ⟨0x80#8, 0xBF#8⟩

/-- The rows of R125's table: the range of the first, second, third and fourth byte. -/
def utf8Rows : List (List ByteRange) :=
  [[⟨0x00#8, 0x7F#8⟩],
   [⟨0xC2#8, 0xDF#8⟩, contRange],
   [⟨0xE0#8, 0xE0#8⟩, ⟨0xA0#8, 0xBF#8⟩, contRange],
   [⟨0xE1#8, 0xEC#8⟩, contRange, contRange],
   [⟨0xED#8, 0xED#8⟩, ⟨0x80#8, 0x9F#8⟩, contRange],
   [⟨0xEE#8, 0xEF#8⟩, contRange, contRange],
   [⟨0xF0#8, 0xF0#8⟩, ⟨0x90#8, 0xBF#8⟩, contRange, contRange],
   [⟨0xF1#8, 0xF3#8⟩, contRange, contRange, contRange],
   [⟨0xF4#8, 0xF4#8⟩, ⟨0x80#8, 0x8F#8⟩, contRange, contRange]]

/-- The sequence begins with bytes in a row's ranges; it does not if it ends first. -/
def rowMatches : List ByteRange → List Byte → Bool
  | [], _ => true
  | _ :: _, [] => false
  | r :: rs, b :: bs => r.has b && rowMatches rs bs

/-- The length of the well-formed sequence that `d` begins with, none if no row matches. -/
def utf8SeqLen (d : List Byte) : Option Nat :=
  (utf8Rows.find? (fun row => rowMatches row d)).map List.length

/-- The scan of R125 from index `i`, `d` being the bytes from there on. Each match moves past at least
one byte, so `fuel` at the number of bytes reaches the end. -/
def utf8Scan : (fuel i : Nat) → List Byte → Nat
  | 0, i, _ => i
  | _ + 1, i, [] => i
  | fuel + 1, i, b :: d =>
    match utf8SeqLen (b :: d) with
    | none => i
    | some k => utf8Scan fuel (i + k) ((b :: d).drop k)

/-- `Utf8ValidUpTo(d)` (spec/42_chunk.md R125). -/
def utf8ValidUpTo (d : List Byte) : Nat := utf8Scan d.length 0 d

end Sys2Proof.Machine
end

