-- ==== Sys2Proof/Machine/ChunkUnit.lean ====
section
/-! DEFINITION. The chunk unit: CHUNK_NEW, CHUNK_SERIALIZE, CHUNK_PARSE, CHUNK_TEXT_CHECK and the
accessors of a chunk and its frame (spec/42_chunk.md). -/

namespace Sys2Proof.Machine

/-- CHUNK_NEW (spec/42_chunk.md R120). -/
def chunkNewResult (s : State) : CmdResult :=
  if s.tValid then
    let d := s.memRead .ibuf 0 s.inLen.toNat
    .finish (.chunk s.inLen s.tBytes (chunkCrc s.tBytes d) d)
  else .raise .noTag 0#32 0#32

/-- The frame of a chunk: length, type tag, payload, checksum, each number big-endian
(spec/30_encoding.md R75). -/
def frameBytes (length type crc : Word) (data : List Byte) : List Byte :=
  bytesBE32 length ++ bytesBE32 type ++ data ++ bytesBE32 crc

/-- CHUNK_SERIALIZE (spec/42_chunk.md R121). -/
def chunkSerializeResult (s : State) : CmdResult :=
  if s.cValid then
    .finish (.frame (12#32 + s.cLength)
      (frameBytes s.cLength s.cType s.cCrc (s.memRead .dbuf 0 s.cLength.toNat)))
  else .raise .noChunk 0#32 0#32

/-- The seven stages of CHUNK_PARSE over `raw`, the bytes IBUF[0..IN_LEN): each stage's read is tested
before its value is, and the first to fail ends the parse. Stages 2 and 5 can never fail and are left
out (spec/42_chunk.md R122, R123). -/
def parseFrame (raw : List Byte) : CmdResult :=
  let n := raw.length
  if n < 4 then .raise .readError 0#32 4#32
  else
    let length := (be32At raw 0).toNat
    if n < 8 then .raise .readError 4#32 4#32
    else
      let type := be32At raw 4
      match tagCheck type with
      | some b => .raise .invalidChunkType ErrorCode.badByte.number (zextByte b)
      | none =>
        if n - 8 < length then .raise .readError 8#32 (countWord length)
        else
          let data := slice raw 8 length
          if n - 8 - length < 4 then .raise .readError (countWord (8 + length)) 4#32
          else
            let provided := be32At raw (8 + length)
            let computed := chunkCrc type data
            if computed ≠ provided then .raise .invalidCrc provided computed
            else .finish (.chunk (countWord length) type provided data)

/-- CHUNK_PARSE (spec/42_chunk.md R122). -/
def chunkParseResult (s : State) : CmdResult := parseFrame (s.memRead .ibuf 0 s.inLen.toNat)

/-- CHUNK_TEXT_CHECK (spec/42_chunk.md R124). -/
def chunkTextCheckResult (s : State) : CmdResult :=
  if s.cValid then
    let d := s.memRead .dbuf 0 s.cLength.toNat
    let k := utf8ValidUpTo d
    if k ≠ d.length then .raise .textDecode (countWord k) 0#32 else .finish .nothing
  else .raise .noChunk 0#32 0#32

/-- CHUNK_NEW completes (spec/42_chunk.md R120). -/
def execChunkNew (s : State) : Host.Outcome State Fault Refusal :=
  .next (complete (chunkNewResult s) s)

/-- CHUNK_SERIALIZE completes (spec/42_chunk.md R121). -/
def execChunkSerialize (s : State) : Host.Outcome State Fault Refusal :=
  .next (complete (chunkSerializeResult s) s)

/-- CHUNK_PARSE completes (spec/42_chunk.md R122). -/
def execChunkParse (s : State) : Host.Outcome State Fault Refusal :=
  .next (complete (chunkParseResult s) s)

/-- CHUNK_TEXT_CHECK completes (spec/42_chunk.md R124). -/
def execChunkTextCheck (s : State) : Host.Outcome State Fault Refusal :=
  .next (complete (chunkTextCheckResult s) s)

/-- CHUNK_LENGTH: C_LENGTH (spec/42_chunk.md R135). -/
def execChunkLength (s : State) : Host.Outcome State Fault Refusal :=
  .next (hostRegRead RegName.cLength.offset 32 .whole s)

/-- CHUNK_TYPE: C_TYPE (spec/42_chunk.md R136). -/
def execChunkType (s : State) : Host.Outcome State Fault Refusal :=
  .next (hostRegRead RegName.cType.offset 32 .whole s)

/-- CHUNK_DATA: byte `i` of DBUF (spec/42_chunk.md R137). -/
def execChunkData (i : Nat) (s : State) : Host.Outcome State Fault Refusal :=
  .next (hostBufRead .dbuf i s)

/-- CHUNK_CRC: C_CRC (spec/42_chunk.md R138). -/
def execChunkCrc (s : State) : Host.Outcome State Fault Refusal :=
  .next (hostRegRead RegName.cCrc.offset 32 .whole s)

/-- CHUNK_FLAGS: C_STATUS (spec/42_chunk.md R139). -/
def execChunkFlags (s : State) : Host.Outcome State Fault Refusal :=
  .next (hostRegRead RegName.cStatus.offset 32 .whole s)

/-- FRAME_READ: OUT_LEN, or byte `i` of OBUF (spec/42_chunk.md R140). -/
def execFrameRead (i : Option Nat) (s : State) : Host.Outcome State Fault Refusal :=
  match i with
  | none => .next (hostRegRead RegName.outLen.offset 32 .whole s)
  | some i => .next (hostBufRead .obuf i s)

end Sys2Proof.Machine
end

