-- ==== Sys2Proof/Machine/Control.lean ====
section
/-! DEFINITION. The control commands, the host writes and the reads of status, configuration and
operands (spec/43_control.md). -/

namespace Sys2Proof.Machine

/-- NOP completes: `finish`, with nothing to write (spec/43_control.md R153). -/
def execNop (s : State) : Host.Outcome State Fault Refusal := .next (complete (.finish .nothing) s)

/-- An illegal command word completes with ILLEGAL_COMMAND and the word (spec/43_control.md R154). -/
def execIllegal (w : Word) (s : State) : Host.Outcome State Fault Refusal :=
  .next (complete (.raise .illegalCommand w 0#32) s)

/-- WRITE_CMD: the command is accepted, or dropped while BUSY = 1 (spec/43_control.md R150, R156). -/
def execWriteCmd (w : Word) (s : State) : Host.Outcome State Fault Refusal :=
  .next (regWrite RegName.cmd.offset 32 w s)

/-- WRITE_TAG_IN (spec/43_control.md R157). -/
def execWriteTagIn (v : Word) (s : State) : Host.Outcome State Fault Refusal :=
  .next (regWrite RegName.tagIn.offset 32 v s)

/-- WRITE_IN_LEN (spec/43_control.md R158). -/
def execWriteInLen (v : Word) (s : State) : Host.Outcome State Fault Refusal :=
  .next (regWrite RegName.inLen.offset 32 v s)

/-- WRITE_IBUF (spec/43_control.md R159). -/
def execWriteIbuf (i : Nat) (b : Byte) (s : State) : Host.Outcome State Fault Refusal :=
  .next (bufWrite .ibuf i b s)

/-- READ_STATUS (spec/43_control.md R160). -/
def execReadStatus (s : State) : Host.Outcome State Fault Refusal :=
  .next (hostRegRead RegName.status.offset 32 .whole s)

/-- READ_ERR_CODE (spec/43_control.md R161). -/
def execReadErrCode (s : State) : Host.Outcome State Fault Refusal :=
  .next (hostRegRead RegName.errCode.offset 32 .whole s)

/-- READ_ERR_INFO0 (spec/43_control.md R161). -/
def execReadErrInfo0 (s : State) : Host.Outcome State Fault Refusal :=
  .next (hostRegRead RegName.errInfo0.offset 32 .whole s)

/-- READ_ERR_INFO1 (spec/43_control.md R161). -/
def execReadErrInfo1 (s : State) : Host.Outcome State Fault Refusal :=
  .next (hostRegRead RegName.errInfo1.offset 32 .whole s)

/-- READ_CFG_IBUF_SIZE (spec/43_control.md R162). -/
def execReadCfgIbufSize (s : State) : Host.Outcome State Fault Refusal :=
  .next (hostRegRead RegName.cfgIbufSize.offset 32 .whole s)

/-- READ_CFG_DBUF_SIZE (spec/43_control.md R162). -/
def execReadCfgDbufSize (s : State) : Host.Outcome State Fault Refusal :=
  .next (hostRegRead RegName.cfgDbufSize.offset 32 .whole s)

/-- READ_CFG_OBUF_SIZE (spec/43_control.md R162). -/
def execReadCfgObufSize (s : State) : Host.Outcome State Fault Refusal :=
  .next (hostRegRead RegName.cfgObufSize.offset 32 .whole s)

/-- READ_TAG_IN (spec/43_control.md R163). -/
def execReadTagIn (s : State) : Host.Outcome State Fault Refusal :=
  .next (hostRegRead RegName.tagIn.offset 32 .whole s)

/-- READ_IN_LEN (spec/43_control.md R163). -/
def execReadInLen (s : State) : Host.Outcome State Fault Refusal :=
  .next (hostRegRead RegName.inLen.offset 32 .whole s)

end Sys2Proof.Machine
end

