-- ==== Sys2Proof/Machine/TagUnit.lean ====
section
/-! DEFINITION. The TypeTag unit: TAG_FROM_BYTES, TAG_FROM_TEXT and the seven accessors of a tag
(spec/40_typetag.md). -/

namespace Sys2Proof.Machine

/-- A tag is constructed from its 4 packed bytes, or BAD_BYTE records the first that is no letter
(spec/40_typetag.md R93, R95, R96). -/
def constructTag (t : Word) : CmdResult :=
  match tagCheck t with
  | some b => .raise .badByte (zextByte b) 0#32
  | none => .finish (.tag t)

/-- TAG_FROM_BYTES: the 4 bytes of TAG_IN (spec/40_typetag.md R95). -/
def tagFromBytesResult (s : State) : CmdResult := constructTag s.tagIn

/-- TAG_FROM_TEXT: the length is tested before any byte (spec/40_typetag.md R96). -/
def tagFromTextResult (s : State) : CmdResult :=
  if s.inLen.toNat ≠ 4 then .raise .badLength s.inLen 0#32
  else
    constructTag
      (be32 (s.byteAt .ibuf 0) (s.byteAt .ibuf 1) (s.byteAt .ibuf 2) (s.byteAt .ibuf 3))

/-- TAG_FROM_BYTES completes (spec/40_typetag.md R95). -/
def execTagFromBytes (s : State) : Host.Outcome State Fault Refusal :=
  .next (complete (tagFromBytesResult s) s)

/-- TAG_FROM_TEXT completes (spec/40_typetag.md R96). -/
def execTagFromText (s : State) : Host.Outcome State Fault Refusal :=
  .next (complete (tagFromTextResult s) s)

/-- TAG_BYTES: the word of T_BYTES (spec/40_typetag.md R100). -/
def execTagBytes (s : State) : Host.Outcome State Fault Refusal :=
  .next (hostRegRead RegName.tBytes.offset 32 .whole s)

/-- TAG_TEXT: T_BYTES as four characters, position 0 first (spec/40_typetag.md R101). -/
def execTagText (s : State) : Host.Outcome State Fault Refusal :=
  .next (hostRegRead RegName.tBytes.offset 32 .text s)

/-- TAG_IS_CRITICAL: T_STATUS bit 1 (spec/40_typetag.md R102). -/
def execTagIsCritical (s : State) : Host.Outcome State Fault Refusal :=
  .next (hostRegRead RegName.tStatus.offset 32 (.bit 1) s)

/-- TAG_IS_PUBLIC: T_STATUS bit 2 (spec/40_typetag.md R103). -/
def execTagIsPublic (s : State) : Host.Outcome State Fault Refusal :=
  .next (hostRegRead RegName.tStatus.offset 32 (.bit 2) s)

/-- TAG_IS_RSV_OK: T_STATUS bit 3 (spec/40_typetag.md R104). -/
def execTagIsRsvOk (s : State) : Host.Outcome State Fault Refusal :=
  .next (hostRegRead RegName.tStatus.offset 32 (.bit 3) s)

/-- TAG_IS_SAFE_COPY: T_STATUS bit 4 (spec/40_typetag.md R105). -/
def execTagIsSafeCopy (s : State) : Host.Outcome State Fault Refusal :=
  .next (hostRegRead RegName.tStatus.offset 32 (.bit 4) s)

/-- TAG_IS_VALID: T_STATUS bit 5 (spec/40_typetag.md R106). -/
def execTagIsValid (s : State) : Host.Outcome State Fault Refusal :=
  .next (hostRegRead RegName.tStatus.offset 32 (.bit 5) s)

end Sys2Proof.Machine
end

