-- ==== Sys2Proof/Machine/Dispatch.lean ====
section
/-! DEFINITION. One arm per instruction. -/

namespace Sys2Proof.Machine

open Sys2Proof

def exec (i : Instr) (s : State) : Host.Outcome State Fault Refusal :=
  match i with
  | .nop => Sys2Proof.Machine.execNop s
  | .tagFromBytes => Sys2Proof.Machine.execTagFromBytes s
  | .tagFromText => Sys2Proof.Machine.execTagFromText s
  | .chunkNew => Sys2Proof.Machine.execChunkNew s
  | .chunkSerialize => Sys2Proof.Machine.execChunkSerialize s
  | .chunkParse => Sys2Proof.Machine.execChunkParse s
  | .chunkTextCheck => Sys2Proof.Machine.execChunkTextCheck s
  | .illegal w => Sys2Proof.Machine.execIllegal w s
  | .tagBytes => Sys2Proof.Machine.execTagBytes s
  | .tagText => Sys2Proof.Machine.execTagText s
  | .tagIsCritical => Sys2Proof.Machine.execTagIsCritical s
  | .tagIsPublic => Sys2Proof.Machine.execTagIsPublic s
  | .tagIsRsvOk => Sys2Proof.Machine.execTagIsRsvOk s
  | .tagIsSafeCopy => Sys2Proof.Machine.execTagIsSafeCopy s
  | .tagIsValid => Sys2Proof.Machine.execTagIsValid s
  | .chunkLength => Sys2Proof.Machine.execChunkLength s
  | .chunkType => Sys2Proof.Machine.execChunkType s
  | .chunkData k => Sys2Proof.Machine.execChunkData k s
  | .chunkCrc => Sys2Proof.Machine.execChunkCrc s
  | .chunkFlags => Sys2Proof.Machine.execChunkFlags s
  | .frameRead k => Sys2Proof.Machine.execFrameRead k s
  | .writeCmd w => Sys2Proof.Machine.execWriteCmd w s
  | .writeTagIn v => Sys2Proof.Machine.execWriteTagIn v s
  | .writeInLen v => Sys2Proof.Machine.execWriteInLen v s
  | .writeIbuf k b => Sys2Proof.Machine.execWriteIbuf k b s
  | .readStatus => Sys2Proof.Machine.execReadStatus s
  | .readErrCode => Sys2Proof.Machine.execReadErrCode s
  | .readErrInfo0 => Sys2Proof.Machine.execReadErrInfo0 s
  | .readErrInfo1 => Sys2Proof.Machine.execReadErrInfo1 s
  | .readCfgIbufSize => Sys2Proof.Machine.execReadCfgIbufSize s
  | .readCfgDbufSize => Sys2Proof.Machine.execReadCfgDbufSize s
  | .readCfgObufSize => Sys2Proof.Machine.execReadCfgObufSize s
  | .readTagIn => Sys2Proof.Machine.execReadTagIn s
  | .readInLen => Sys2Proof.Machine.execReadInLen s

end Sys2Proof.Machine
end

