-- ==== Sys2Proof/Machine/Fetch.lean ====
section
/-! DEFINITION. What the next step does: which of the two agents moves, and with what
(spec/00_scope.md R17, spec/20_memory.md R62, spec/70_reset_and_hazards.md R202). -/

namespace Sys2Proof.Machine

/-- What the next step does, with the state it does it in: the entry that has arrived is out of
`inputs`. -/
inductive Turn where
  /-- The engine completes the command of word `w`. -/
  | command (w : Word) (s : State)
  /-- The block performs a transaction of the host. -/
  | access (a : Access) (s : State)
  /-- The step changes nothing but what has been done already. -/
  | settled (s : State)

/-- The engine's turn: the running command completes, or the block stays idle
(spec/43_control.md R151, spec/70_reset_and_hazards.md R193). -/
def engineTurn (s : State) : Turn :=
  match s.running with
  | some w => .command w s
  | none => .settled s

/-- One poll of WAIT: STATUS is read, and the host polls again if the value read has BUSY = 1
(spec/30_encoding.md R84). -/
def pollStatus (polls : Nat) (s : State) : State :=
  let t := hostRegRead RegName.status.offset 32 .whole s
  if (regRead RegName.status.offset 32 s).1.getLsbD 0 then
    { t with inputs := .wait (polls - 1) :: t.inputs }
  else t

/-- A step of the host's WAIT. Once `polls` reads have found BUSY = 1 the running command completes, and
the poll after it finds BUSY = 0 (spec/30_encoding.md R84, spec/70_reset_and_hazards.md R201). -/
def waitTurn (polls : Nat) (rest : List Input) (s : State) : Turn :=
  match polls, s.running with
  | 0, some w => .command w s
  | _, _ => .settled (pollStatus polls { s with inputs := rest })

/-- What the next step does. With nothing left to arrive, the engine moves: every accepted command
completes (spec/43_control.md R152, spec/70_reset_and_hazards.md R202). -/
def nextTurn (s : State) : Turn :=
  match s.inputs with
  | [] => engineTurn s
  | .engine :: rest => engineTurn { s with inputs := rest }
  | .access a :: rest => .access a { s with inputs := rest }
  | .wait polls :: rest => waitTurn polls rest s
  | .rst level :: rest => .settled (setReset level { s with inputs := rest })

end Sys2Proof.Machine
end

