-- ==== Sys2Proof/Machine/Step.lean ====
section
/-! DEFINITION. One step of the machine, and how one instruction is put before it. -/

namespace Sys2Proof.Machine

/-- One step: a command completes, a transaction is performed, or the pin or the host's polling moves.
A transaction that is no row of the opcode table is performed by the general rules of its space. -/
def step (s : State) : Host.Outcome State Fault Refusal :=
  match nextTurn s with
  | .command w t => exec (decodeCommand w) t
  | .access a t =>
    match decodeAccess a with
    | .ok i => exec i t
    | .error _ => .next (performAccess a t)
  | .settled t => .next t

/-- `s` with one row of the opcode table as what the next step runs: a command word is accepted and its
completion comes next, a transaction arrives next. Log entry 8 says how a program comes to run. -/
def State.withFetchWord (s : State) (nbits w : Nat) : State :=
  match codeOfTableWord nbits w with
  | some (.command v) => { s.accept v with rst := false, inputs := .engine :: s.inputs }
  | some (.access a) => { s with inputs := .access a :: s.inputs }
  | none => s

end Sys2Proof.Machine
end

