-- ==== Sys2Proof/Machine/HostProgram.lean ====
section
/-! DEFINITION. The notation of host programs and its expansion into transactions
(spec/30_encoding.md R80 to R85). -/

namespace Sys2Proof.Machine

/-- The command mnemonics of spec/30_encoding.md R71. -/
inductive Op where
  | nop
  | tagFromBytes
  | tagFromText
  | chunkNew
  | chunkSerialize
  | chunkParse
  | chunkTextCheck
  deriving DecidableEq, Repr

/-- The OP of a mnemonic (spec/30_encoding.md R71). -/
def Op.word : Op → Word
  | .nop => 0x00#32
  | .tagFromBytes => 0x01#32
  | .tagFromText => 0x02#32
  | .chunkNew => 0x03#32
  | .chunkSerialize => 0x04#32
  | .chunkParse => 0x05#32
  | .chunkTextCheck => 0x06#32

/-- A line of a host program (spec/30_encoding.md R80 to R85). -/
inductive HostLine where
  /-- `WR <reg>, <v32>` -/
  | wr (r : RegName) (v : Word)
  /-- `RD <reg>` -/
  | rd (r : RegName)
  /-- `WRB IBUF[<i>], <byte>` -/
  | wrb (i : Nat) (b : Byte)
  /-- `RDB <space>[<i>]` -/
  | rdb (sp : Buf) (i : Nat)
  /-- `CMD <mnemonic>` -/
  | cmd (op : Op)
  /-- `LOAD_IBUF <bytes>` -/
  | loadIbuf (bytes : List Byte)
  /-- `LOAD_TAG "<c0c1c2c3>"` -/
  | loadTag (c0 c1 c2 c3 : Byte)
  /-- `WAIT` -/
  | wait
  /-- `ISSUE <mnemonic>` -/
  | issue (op : Op)
  /-- `CHECK <reg>, <v32>` -/
  | check (r : RegName) (v : Word)
  deriving DecidableEq, Repr

/-- The transactions `WRB IBUF[i], <byte>` for a sequence of bytes from index `i` on. -/
def writeBytes (i : Nat) : List Byte → List Access
  | [] => []
  | b :: bs => .bufWrite .ibuf i b :: writeBytes (i + 1) bs

/-- The transactions of a line, and the WAITs among them; `polls` is how many polls of a WAIT find
BUSY = 1, which `LATENCY` decides (spec/30_encoding.md R80 to R85). A line places no engine's turn:
`placeTurns` does. -/
def HostLine.expand (polls : Nat) : HostLine → List Input
  | .wr r v => [.access (.regWrite r.offset 32 v)]
  | .rd r => [.access (.regRead r.offset 32 .whole)]
  | .wrb i b => [.access (.bufWrite .ibuf i b)]
  | .rdb sp i => [.access (.bufRead sp i)]
  | .cmd op => [.access (.regWrite RegName.cmd.offset 32 op.word)]
  | .loadIbuf bytes =>
    (writeBytes 0 bytes).map .access ++
      [.access (.regWrite RegName.inLen.offset 32 (countWord bytes.length))]
  | .loadTag c0 c1 c2 c3 => [.access (.regWrite RegName.tagIn.offset 32 (be32 c0 c1 c2 c3))]
  | .wait => [.wait polls]
  | .issue op => [.access (.regWrite RegName.cmd.offset 32 op.word), .wait polls]
  | .check r _ => [.access (.regRead r.offset 32 .whole)]

/-- What `CHECK` asserts of the value its RegRead returned (spec/30_encoding.md R85); the other lines
assert nothing. -/
def HostLine.asserts (l : HostLine) (s : State) : Bool :=
  match l with
  | .check _ v => s.reply.value == .word v
  | .wr _ _ | .rd _ | .wrb _ _ | .rdb _ _ | .cmd _ | .loadIbuf _ | .loadTag _ _ _ _ | .wait
  | .issue _ => true

/-- A program's entries with an engine's turn before each one that `turns` marks; none after its end. -/
def placeTurns : (turns : List Bool) → List Input → List Input
  | _, [] => []
  | [], a :: rest => a :: rest
  | turn :: turns, a :: rest => (if turn then [.engine, a] else [a]) ++ placeTurns turns rest

/-- A program put before the block, to arrive after what has yet to arrive, each line with the polls of its
WAIT. DESIGN CHOICE (log entry 17): when a command completes among the later lines is open (`LATENCY`,
spec/70_reset_and_hazards.md R201; both outcomes of spec/95_test_vectors.md P5), and `turns` and the polls
say it; where they place no turn, a command completes at the next WAIT or after the last line. -/
def State.withProgram (turns : List Bool) (p : List (Nat × HostLine)) (s : State) : State :=
  { s with inputs := s.inputs ++ placeTurns turns (p.flatMap (fun l => l.2.expand l.1)) }

/-- `LOAD_IBUF` as the transactions it expands to, performed in order (spec/30_encoding.md R81). -/
def loadIbuf (bytes : List Byte) (s : State) : State :=
  regWrite RegName.inLen.offset 32 (countWord bytes.length)
    ((writeBytes 0 bytes).foldl (fun t a => performAccess a t) s)

end Sys2Proof.Machine
end

