-- ==== Sys2Proof/Safety.lean ====
section
/-! DEFINITION. What counts as a safe state of the block, in the terms the statements use: the
invariants the spec states of it. -/

namespace Sys2Proof.Machine

/-- The values ERR_CODE can hold: OK and the produced codes of spec/60_exceptions.md R170 (U19). -/
def producedErrCodes : List Word :=
  [0x00#32, 0x01#32, 0x02#32, 0x03#32, 0x05#32, 0x07#32, 0x08#32, 0x10#32, 0x11#32, 0x12#32]

/-- The parameter is one an implementation may have (spec/00_scope.md R8), and IN_LEN is within it
(spec/10_state.md R33). -/
def State.sizesInv (s : State) : Prop :=
  Config.minIbufSize ≤ s.ibufSize ∧ s.ibufSize ≤ Config.maxIbufSize ∧ s.inLen.toNat ≤ s.ibufSize

/-- STATUS and the engine agree: BUSY says that a command is running, none runs under reset, DONE and
BUSY exclude each other, ERR says that the last command ended in an error, and OVR needs a command
(spec/10_state.md R26 to R29, spec/70_reset_and_hazards.md R190). -/
def State.statusInv (s : State) : Prop :=
  (s.status.busy = s.running.isSome) ∧
  (s.rst = true → s.status = ⟨false, false, false, false⟩) ∧
  ¬ (s.status.busy = true ∧ s.status.done = true) ∧
  (s.status.err = true ↔ s.status.done = true ∧ s.errCode ≠ 0#32) ∧
  (s.status.ovr = true → s.status.busy = true ∨ s.status.done = true) ∧
  s.errCode ∈ producedErrCodes

/-- The tag invariant (spec/10_state.md R44). -/
def State.tagInv (s : State) : Prop := s.tValid = true → allAlpha s.tBytes = true

/-- The chunk invariant (spec/10_state.md R43). -/
def State.chunkInv (s : State) : Prop :=
  s.cValid = true →
    s.cLength.toNat ≤ s.ibufSize ∧ allAlpha s.cType = true ∧
    s.cCrc = chunkCrc s.cType (s.memRead .dbuf 0 s.cLength.toNat)

/-- The memories are in canonical form and list what the spec says is there: IBUF nothing beyond its
size, DBUF exactly the chunk's payload, OBUF exactly the last frame (spec/20_memory.md R50, R53, R54). -/
def State.memInv (s : State) : Prop :=
  Memory.wf s.ibuf = true ∧ (∀ c ∈ s.ibuf, c.1 < s.ibufSize) ∧
  s.dbuf.map Prod.fst = List.range (if s.cValid then s.cLength.toNat else 0) ∧
  s.obuf.map Prod.fst = List.range s.outLen.toNat ∧ s.outLen.toNat ≤ s.ibufSize + 12

/-- The invariant of the machine. -/
def State.Inv (s : State) : Prop :=
  s.sizesInv ∧ s.statusInv ∧ s.tagInv ∧ s.chunkInv ∧ s.memInv

/-- The block takes the host's transactions and runs nothing: no reset, BUSY = 0. -/
def State.Idle (s : State) : Prop := s.rst = false ∧ s.status.busy = false

/-- The block takes the host's transactions and runs a command: no reset, BUSY = 1. -/
def State.Busy (s : State) : Prop := s.rst = false ∧ s.status.busy = true

/-- `s` with the registers every completion writes: ERR_CODE, both ERR_INFO registers, and STATUS with
DONE, with ERR for a code other than 0, and with OVR kept (spec/43_control.md R151). -/
def State.completedWith (code info0 info1 : Word) (s : State) : State :=
  { s with
      errCode := code, errInfo0 := info0, errInfo1 := info1, running := none,
      status := ⟨false, true, decide (code ≠ 0#32), s.status.ovr⟩ }

/-- The word at 4 bytes of IBUF, big-endian. -/
def State.ibufWord (s : State) (i : Nat) : Word :=
  be32 (s.byteAt .ibuf i) (s.byteAt .ibuf (i + 1)) (s.byteAt .ibuf (i + 2)) (s.byteAt .ibuf (i + 3))

/-- The operands of the commands that read IBUF agree: IN_LEN and the bytes below it. -/
def State.inputAgrees (s t : State) : Prop :=
  s.inLen = t.inLen ∧ ∀ i, i < s.inLen.toNat → s.byteAt .ibuf i = t.byteAt .ibuf i

/-- The operands of the commands that read DBUF agree: C_VALID, C_LENGTH and the bytes below it. -/
def State.payloadAgrees (s t : State) : Prop :=
  s.cValid = t.cValid ∧ s.cLength = t.cLength ∧
    ∀ i, i < s.cLength.toNat → s.byteAt .dbuf i = t.byteAt .dbuf i

/-- Two states agree on the operands of a command (spec/30_encoding.md R74, column "reads"); the rows
that are transactions are no commands. -/
def operandsAgree (i : Instr) (s t : State) : Prop :=
  match i with
  | .nop | .illegal _ => True
  | .tagFromBytes => s.tagIn = t.tagIn
  | .tagFromText => s.inputAgrees t
  | .chunkNew => s.tBytes = t.tBytes ∧ s.tValid = t.tValid ∧ s.inputAgrees t
  | .chunkSerialize => s.cType = t.cType ∧ s.cCrc = t.cCrc ∧ s.payloadAgrees t
  | .chunkParse => s.inputAgrees t
  | .chunkTextCheck => s.payloadAgrees t
  | .tagBytes | .tagText | .tagIsCritical | .tagIsPublic | .tagIsRsvOk | .tagIsSafeCopy
  | .tagIsValid | .chunkLength | .chunkType | .chunkData _ | .chunkCrc | .chunkFlags
  | .frameRead _ | .writeCmd _ | .writeTagIn _ | .writeInLen _ | .writeIbuf _ _ | .readStatus
  | .readErrCode | .readErrInfo0 | .readErrInfo1 | .readCfgIbufSize | .readCfgDbufSize
  | .readCfgObufSize | .readTagIn | .readInLen => False

/-- Two states agree on what a command writes when it succeeds (spec/30_encoding.md R74, column "writes
on success"). DBUF and OBUF are compared as listed bytes: those above the length, which the spec leaves
unspecified, agree only because the model lists none (DESIGN CHOICE, log entry 11). -/
def resultsAgree (i : Instr) (s t : State) : Prop :=
  match i with
  | .nop | .illegal _ | .chunkTextCheck => True
  | .tagFromBytes | .tagFromText => s.tBytes = t.tBytes ∧ s.tValid = t.tValid
  | .chunkNew | .chunkParse =>
    s.cLength = t.cLength ∧ s.cType = t.cType ∧ s.cCrc = t.cCrc ∧ s.cValid = t.cValid ∧
      s.dbuf = t.dbuf
  | .chunkSerialize => s.outLen = t.outLen ∧ s.obuf = t.obuf
  | .tagBytes | .tagText | .tagIsCritical | .tagIsPublic | .tagIsRsvOk | .tagIsSafeCopy
  | .tagIsValid | .chunkLength | .chunkType | .chunkData _ | .chunkCrc | .chunkFlags
  | .frameRead _ | .writeCmd _ | .writeTagIn _ | .writeInLen _ | .writeIbuf _ _ | .readStatus
  | .readErrCode | .readErrInfo0 | .readErrInfo1 | .readCfgIbufSize | .readCfgDbufSize
  | .readCfgObufSize | .readTagIn | .readInLen => False

/-- How many steps use up what has yet to arrive. -/
def inputCost : List Input → Nat
  | [] => 0
  | .wait polls :: rest => polls + 1 + inputCost rest
  | .access _ :: rest => 1 + inputCost rest
  | .engine :: rest => 1 + inputCost rest
  | .rst _ :: rest => 1 + inputCost rest

/-- The bytes are a sequence of well-formed UTF-8 sequences: each matches one row of the table whole
(spec/42_chunk.md R125). -/
inductive WellFormedUtf8 : List Byte → Prop where
  | nil : WellFormedUtf8 []
  | cons (row : List ByteRange) (seq rest : List Byte) :
      row ∈ utf8Rows → seq.length = row.length → rowMatches row seq = true →
      WellFormedUtf8 rest → WellFormedUtf8 (seq ++ rest)

end Sys2Proof.Machine
end

