-- ==== Sys2Proof/Certificates/Slice0/Obligations.lean ====
section
/-! DEFINITION. The statements for the provers. Each docstring says which rule of spec/ it formalises. -/

open Sys2Proof Sys2Proof.Machine

/-! ### Steps and encodings -/

/-- A transaction that is a row of the opcode table is run by the next step as that row's instruction,
with the entry out of what has yet to arrive (R20, R62). -/
def Obligations.StepRunsDecodedTransaction : Prop :=
  ∀ (s : State) (a : Access) (rest : List Input) (i : Instr),
    s.inputs = .access a :: rest → decode (.access a) = .ok i →
      step s = exec i { s with inputs := rest }

/-- A transaction that is no row of the table is performed by the general rules of its space. -/
def Obligations.StepPerformsUntabledTransaction : Prop :=
  ∀ (s : State) (a : Access) (rest : List Input) (why : Untabled),
    s.inputs = .access a :: rest → decode (.access a) = .error why →
      step s = .next (performAccess a { s with inputs := rest })

/-- When the engine's turn comes, the step is the running command's completion: at an engine entry, when
nothing is left to arrive, and when a WAIT has done the polls that find BUSY = 1 (R151, R202; when the turn
comes is the model's choice, log entry 6). -/
def Obligations.StepCompletesTheRunningCommand : Prop :=
  ∀ (s : State) (w : Word), s.running = some w →
    (∀ rest, s.inputs = .engine :: rest →
      step s = exec (decodeCommand w) { s with inputs := rest }) ∧
    (s.inputs = [] → step s = exec (decodeCommand w) s) ∧
    (∀ rest, s.inputs = .wait 0 :: rest → step s = exec (decodeCommand w) s)

/-- A block that runs nothing stays as it is: it waits for a CMD write (R193; the engine's
turns are the model's choice, log entry 6). -/
def Obligations.IdleEngineChangesNothing : Prop :=
  ∀ s : State, s.running = none →
    (s.inputs = [] → step s = .next s) ∧
    (∀ rest, s.inputs = .engine :: rest → step s = .next { s with inputs := rest })

/-- A WAIT reads STATUS each time; the host polls again while the value read has BUSY = 1, and goes on
once it has BUSY = 0 (R84; how many polls find BUSY = 1 is data of the model's, log entry 6). -/
def Obligations.WaitPollsStatusUntilNotBusy : Prop :=
  ∀ (s : State) (polls : Nat) (rest : List Input), s.inputs = .wait polls :: rest →
    (s.Idle → s.running = none →
      step s = .next { s with inputs := rest, reply := .word s.status.toWord .whole }) ∧
    (s.Busy → 0 < polls →
      step s = .next { s with inputs := .wait (polls - 1) :: rest,
                              reply := .word s.status.toWord .whole })

/-- Words and transactions written out from the tables of R71, R78 and R79 decode to their rows. -/
def Obligations.SpecEncodingsDecode : Prop :=
  decode (.command 0x00000001#32) = .ok .tagFromBytes ∧
  decode (.command 0x00000005#32) = .ok .chunkParse ∧
  decode (.command 0x00000105#32) = .ok (.illegal 0x00000105#32) ∧
  decode (.command 0x00000007#32) = .ok (.illegal 0x00000007#32) ∧
  decode (.access (.regRead 0x1C 32 .whole)) = .ok .tagBytes ∧
  decode (.access (.regRead 0x20 32 (.bit 4))) = .ok .tagIsSafeCopy ∧
  decode (.access (.bufRead .dbuf 1)) = .ok (.chunkData 1) ∧
  decode (.access (.regRead 0x34 32 .whole)) = .ok (.frameRead none) ∧
  decode (.access (.regWrite 0x14 32 0x52755374#32)) = .ok (.writeTagIn 0x52755374#32) ∧
  decode (.access (.bufWrite .ibuf 0 0x52#8)) = .ok (.writeIbuf 0 0x52#8) ∧
  decode (.access (.regRead 0x04 32 .whole)) = .ok .readStatus

/-- The decoder and the encoder are inverse: a well-formed instruction is read back from its own
encoding, and what is decoded is well-formed and encodes to what was read. -/
def Obligations.DecodeAndEncodeAreInverse : Prop :=
  (∀ i : Instr, i.wf = true → decode (encode i) = .ok i) ∧
  (∀ (c : Code) (i : Instr), decode c = .ok i → encode i = c ∧ i.wf = true)

/-- R72: a word selects the command whose OP is `w[7:0]` iff `w[31:8] = 0` and `w[7:0] <= 0x06`;
otherwise it is illegal and completes with ILLEGAL_COMMAND. -/
def Obligations.CommandWordSelectsOneCommand : Prop :=
  ∀ w : Word,
    (w.extractLsb 31 8 = 0#24 ∧ w.extractLsb 7 0 ≤ 0x06#8 →
      [Instr.nop, .tagFromBytes, .tagFromText, .chunkNew, .chunkSerialize, .chunkParse,
        .chunkTextCheck][(w.extractLsb 7 0).toNat]? = some (decodeCommand w)) ∧
    (¬ (w.extractLsb 31 8 = 0#24 ∧ w.extractLsb 7 0 ≤ 0x06#8) →
      decodeCommand w = .illegal w ∧
        ∀ s : State, ∃ t, exec (decodeCommand w) s = .next t ∧ t.errCode = 0x10#32) ∧
    (∀ row ∈ commandRows, row.1 = 0xFFFFFFFF#32 ∧
      (w &&& row.1 = row.2.1 → decodeCommand w = row.2.2))

/-- An instruction that is a transaction acts as the transaction it encodes, by the rules of its space
(R20, R62). -/
def Obligations.RowsActAsTheirTransactions : Prop :=
  ∀ (i : Instr) (a : Access) (s : State), encode i = .access a →
    exec i s = .next (performAccess a s)

/-- Every step of every state answers a next state: no transaction, no command and no input stops the
block (R152, R177). -/
def Obligations.EveryStepAnswersNext : Prop := ∀ s : State, ∃ t, step s = .next t

/-! ### Host writes -/

/-- R150: a CMD write while BUSY = 0 latches the word, sets BUSY and clears DONE, ERR and OVR; nothing
else changes, whatever the word; an illegal one completes with ILLEGAL_COMMAND. -/
def Obligations.AcceptanceLatchesTheCommand : Prop :=
  ∀ (w : Word) (s : State), s.Idle →
    encode (.writeCmd w) = .access (.regWrite 0x00 32 w) ∧
    ∃ t, exec (.writeCmd w) s = .next t ∧
      t = { s with running := some w,
                   status := { busy := true, done := false, err := false, ovr := false } } ∧
      (w.extractLsb 31 8 ≠ 0#24 ∨ 0x07#8 ≤ w.extractLsb 7 0 →
        ∃ u, exec (decodeCommand w) t = .next u ∧ u.errCode = 0x10#32)

/-- R156: while BUSY = 1 a write of CMD, TAG_IN, IN_LEN or an IBUF byte in range changes nothing but
OVR; the writes the block drops anyway change nothing, busy or not. -/
def Obligations.WritesWhileBusyAreDropped : Prop :=
  ∀ s : State,
    (s.Busy →
      (∀ w, exec (.writeCmd w) s = .next { s with status := { s.status with ovr := true } }) ∧
      (∀ v, exec (.writeTagIn v) s = .next { s with status := { s.status with ovr := true } }) ∧
      (∀ v, exec (.writeInLen v) s = .next { s with status := { s.status with ovr := true } }) ∧
      (∀ i b, i < s.ibufSize →
        exec (.writeIbuf i b) s = .next { s with status := { s.status with ovr := true } })) ∧
    (∀ i b, s.ibufSize ≤ i → exec (.writeIbuf i b) s = .next s) ∧
    (∀ off width v, width ≠ 32 ∨ (off ≠ 0x00 ∧ off ≠ 0x14 ∧ off ≠ 0x18) →
      performAccess (.regWrite off width v) s = s) ∧
    (∀ i b, performAccess (.bufWrite .dbuf i b) s = s ∧ performAccess (.bufWrite .obuf i b) s = s)

/-- R157: WRITE_TAG_IN stores the value while BUSY = 0 and sets OVR while BUSY = 1; T_BYTES does not
change, and TAG_IN reads back the value stored. -/
def Obligations.WriteTagInStoresTheValue : Prop :=
  ∀ (v : Word) (s : State),
    encode (.writeTagIn v) = .access (.regWrite 0x14 32 v) ∧
    (s.Idle → exec (.writeTagIn v) s = .next { s with tagIn := v } ∧
      exec .readTagIn { s with tagIn := v } =
        .next { s with tagIn := v, reply := .word v .whole }) ∧
    (s.Busy → exec (.writeTagIn v) s = .next { s with status := { s.status with ovr := true } })

/-- R158: WRITE_IN_LEN stores `min(v, IBUF_SIZE)` while BUSY = 0 and sets OVR while BUSY = 1; IN_LEN
reads back the clamped value. -/
def Obligations.WriteInLenStoresTheMinimum : Prop :=
  ∀ (v : Word) (s : State),
    encode (.writeInLen v) = .access (.regWrite 0x18 32 v) ∧
    (s.Idle → ∃ x : Word, x.toNat = min v.toNat s.ibufSize ∧
      exec (.writeInLen v) s = .next { s with inLen := x } ∧
      exec .readInLen { s with inLen := x } =
        .next { s with inLen := x, reply := .word x .whole }) ∧
    (s.Busy → exec (.writeInLen v) s = .next { s with status := { s.status with ovr := true } })

/-- WRITE_IBUF stores one byte of IBUF while BUSY = 0, changes no other byte and no register, sets OVR
while BUSY = 1 and is dropped beyond the buffer. The written byte reads back (R159, R52). -/
def Obligations.WriteIbufStoresOneByte : Prop :=
  ∀ (i : Nat) (b : Byte) (s : State),
    encode (.writeIbuf i b) = .access (.bufWrite .ibuf i b) ∧
    (s.ibufSize ≤ i → exec (.writeIbuf i b) s = .next s) ∧
    (s.Busy → i < s.ibufSize →
      exec (.writeIbuf i b) s = .next { s with status := { s.status with ovr := true } }) ∧
    (s.Idle → i < s.ibufSize → ∃ t, exec (.writeIbuf i b) s = .next t ∧
      t = { s with ibuf := t.ibuf } ∧
      t.byteAt .ibuf i = b ∧
      (∀ j, j ≠ i → t.byteAt .ibuf j = s.byteAt .ibuf j) ∧
      performAccess (.bufRead .ibuf i) t = { t with reply := .byte b })

/-- While a command runs, no transaction of the host changes anything of the block but OVR: its inputs
and the registers it works on are fixed from acceptance to completion (R65, R156). -/
def Obligations.RunningCommandsInputsAreFixed : Prop :=
  ∀ (a : Access) (s : State), s.Busy →
    ∃ ovr reply draws, performAccess a s =
      { s with status := { s.status with ovr := ovr }, reply := reply, draws := draws } ∧
      (s.status.ovr = true → ovr = true)

/-! ### Control commands -/

/-- R153: NOP completes without error and changes nothing but STATUS and the error registers; issued after
a command it leaves STATUS = 0x2. -/
def Obligations.NopCompletes : Prop :=
  encode .nop = .command 0x00000000#32 ∧
  (∀ s : State, exec .nop s = .next (s.completedWith 0#32 0#32 0#32)) ∧
  (∀ s : State, s.Idle → ∃ t u, exec (.writeCmd 0x00000000#32) s = .next t ∧ exec .nop t = .next u ∧
    u = { s with status := u.status, errCode := 0#32, errInfo0 := 0#32, errInfo1 := 0#32,
                 running := none } ∧
    u.status.toWord = 0x2#32)

/-- R154: every word with `w[31:8] != 0` or `w[7:0] >= 0x07` completes with ILLEGAL_COMMAND, the word in
ERR_INFO0, and changes no tag, chunk or buffer state. -/
def Obligations.IllegalWordCompletesWithTheWord : Prop :=
  ∀ (w : Word) (s : State), (w.extractLsb 31 8 ≠ 0#24 ∨ 0x07#8 ≤ w.extractLsb 7 0) →
    decode (.command w) = .ok (.illegal w) ∧
    exec (.illegal w) s = .next (s.completedWith 0x10#32 w 0#32)

/-! ### Tags -/

/-- R91 and R92: the four flags are bit 5 of their byte, the fourth with the inverted polarity, and the
tag is valid iff its reserved bit is and all four bytes are letters. -/
def Obligations.TagFlagsAreCaseBits : Prop :=
  ∀ t : Word,
    critical t = !t.getLsbD 29 ∧ publicTag t = !t.getLsbD 21 ∧ rsvOk t = !t.getLsbD 13 ∧
    safeToCopy t = t.getLsbD 5 ∧
    (tagOk t = true ↔ rsvOk t = true ∧ ∀ k, k < 4 → isAlpha (wordByte t k) = true)

/-- R93: the check returns the byte that is no letter at the lowest position, or nothing. -/
def Obligations.TagCheckReportsTheFirstBadByte : Prop :=
  ∀ t : Word,
    (tagCheck t = none ↔ ∀ k, k < 4 → isAlpha (wordByte t k) = true) ∧
    (∀ b, tagCheck t = some b ↔ ∃ k, k < 4 ∧ b = wordByte t k ∧ isAlpha (wordByte t k) = false ∧
      ∀ j, j < k → isAlpha (wordByte t j) = true)

/-- R14 and R90: a letter is upper case iff its case bit is 0. -/
def Obligations.CaseBitOfALetter : Prop :=
  ∀ b : Byte,
    (isAlpha b = true ↔ (0x41 ≤ b.toNat ∧ b.toNat ≤ 0x5A) ∨ (0x61 ≤ b.toNat ∧ b.toNat ≤ 0x7A)) ∧
    (isAlpha b = true → (caseBit b = false ↔ 0x41 ≤ b.toNat ∧ b.toNat ≤ 0x5A))

/-- TAG_FROM_BYTES of four letters constructs the tag and changes nothing else (R95). -/
def Obligations.TagFromBytesConstructs : Prop :=
  ∀ s : State, (∀ k, k < 4 → isAlpha (wordByte s.tagIn k) = true) →
    exec .tagFromBytes s =
      .next { s.completedWith 0#32 0#32 0#32 with tBytes := s.tagIn, tValid := true }

/-- TAG_FROM_BYTES with a byte that is no letter ends in BAD_BYTE with the first such byte (R93, R95). -/
def Obligations.TagFromBytesReportsBadByte : Prop :=
  ∀ (s : State) (k : Nat), k < 4 → isAlpha (wordByte s.tagIn k) = false →
    (∀ j, j < k → isAlpha (wordByte s.tagIn j) = true) →
    exec .tagFromBytes s =
      .next (s.completedWith 0x01#32 (BitVec.ofNat 32 (wordByte s.tagIn k).toNat) 0#32)

/-- TAG_FROM_TEXT of a 4-byte text of letters constructs the tag, position 0 most significant, and
changes nothing else (R96). -/
def Obligations.TagFromTextConstructs : Prop :=
  ∀ s : State, s.inLen = 4#32 → (∀ k, k < 4 → isAlpha (s.byteAt .ibuf k) = true) →
    exec .tagFromText s =
      .next { s.completedWith 0#32 0#32 0#32 with
        tBytes := BitVec.ofNat 32 ((s.byteAt .ibuf 0).toNat * 2 ^ 24 +
          (s.byteAt .ibuf 1).toNat * 2 ^ 16 + (s.byteAt .ibuf 2).toNat * 2 ^ 8 +
          (s.byteAt .ibuf 3).toNat),
        tValid := true }

/-- TAG_FROM_TEXT tests the length before any byte: another length ends in BAD_LENGTH with the length, a
byte of the four that is no letter in BAD_BYTE with the first such byte (R96, R174). -/
def Obligations.TagFromTextReportsItsError : Prop :=
  ∀ s : State,
    (s.inLen ≠ 4#32 → exec .tagFromText s = .next (s.completedWith 0x02#32 s.inLen 0#32)) ∧
    (∀ k, s.inLen = 4#32 → k < 4 → isAlpha (s.byteAt .ibuf k) = false →
      (∀ j, j < k → isAlpha (s.byteAt .ibuf j) = true) →
      exec .tagFromText s =
        .next (s.completedWith 0x01#32 (BitVec.ofNat 32 (s.byteAt .ibuf k).toNat) 0#32))

/-- The tag's accessors give the flags of T_BYTES, gated by T_VALID, and its four characters; they change
nothing of the block (R35, R100 to R106). -/
def Obligations.TagAccessorsGiveTheFlags : Prop :=
  ∀ s : State, s.Idle →
    (∃ t, exec .tagBytes s = .next t ∧ t = { s with reply := t.reply } ∧
      t.reply.value = .word s.tBytes) ∧
    (∃ t, exec .tagText s = .next t ∧ t = { s with reply := t.reply } ∧
      t.reply.value = .text (Char.ofNat (s.tBytes.toNat / 2 ^ 24))
        (Char.ofNat (s.tBytes.toNat / 2 ^ 16 % 256)) (Char.ofNat (s.tBytes.toNat / 2 ^ 8 % 256))
        (Char.ofNat (s.tBytes.toNat % 256))) ∧
    (∃ t, exec .tagIsCritical s = .next t ∧ t = { s with reply := t.reply } ∧
      t.reply.value = .flag (s.tValid && !s.tBytes.getLsbD 29)) ∧
    (∃ t, exec .tagIsPublic s = .next t ∧ t = { s with reply := t.reply } ∧
      t.reply.value = .flag (s.tValid && !s.tBytes.getLsbD 21)) ∧
    (∃ t, exec .tagIsRsvOk s = .next t ∧ t = { s with reply := t.reply } ∧
      t.reply.value = .flag (s.tValid && !s.tBytes.getLsbD 13)) ∧
    (∃ t, exec .tagIsSafeCopy s = .next t ∧ t = { s with reply := t.reply } ∧
      t.reply.value = .flag (s.tValid && s.tBytes.getLsbD 5)) ∧
    (∃ t, exec .tagIsValid s = .next t ∧ t = { s with reply := t.reply } ∧
      t.reply.value = .flag (s.tValid && (!s.tBytes.getLsbD 13 &&
        (isAlpha (wordByte s.tBytes 0) && isAlpha (wordByte s.tBytes 1) &&
         isAlpha (wordByte s.tBytes 2) && isAlpha (wordByte s.tBytes 3)))))

/-- R107: T_STATUS as a whole, and the values it can have while T_VALID = 1: the odd values 0x01 to 0x3F
whose bit 5 equals bit 3, each of them for some tag. -/
def Obligations.TagStatusWordValues : Prop :=
  (∀ s : State, s.tValid = false → regWord .tStatus s = 0#32) ∧
  (∀ s : State, s.tValid = true →
    regWord .tStatus s =
      1#32 ||| flagWord (critical s.tBytes) <<< 1 ||| flagWord (publicTag s.tBytes) <<< 2 |||
        flagWord (rsvOk s.tBytes) <<< 3 ||| flagWord (safeToCopy s.tBytes) <<< 4 |||
        flagWord (tagOk s.tBytes) <<< 5) ∧
  (∀ x : Word,
    (∃ s : State, s.tagInv ∧ s.tValid = true ∧ regWord .tStatus s = x) ↔
      (x.getLsbD 0 = true ∧ x.toNat ≤ 0x3F ∧ x.getLsbD 5 = x.getLsbD 3))

/-! ### CRC-32 -/

/-- The check value of R111 and worked values of R114. -/
def Obligations.CrcCheckValues : Prop :=
  crc32 [] = 0x00000000#32 ∧
  crc32 [0x31#8, 0x32#8, 0x33#8, 0x34#8, 0x35#8, 0x36#8, 0x37#8, 0x38#8, 0x39#8] = 0xCBF43926#32 ∧
  crc32 [0x52#8, 0x75#8, 0x53#8, 0x74#8] = 0xD484093C#32 ∧
  crc32 [0x49#8, 0x45#8, 0x4E#8, 0x44#8] = 0xAE426082#32 ∧
  crc32 [0x52#8, 0x75#8, 0x53#8, 0x74#8, 0x48#8, 0x69#8] = 0x47381BD1#32

/-- The table-driven computation gives the same checksum: a byte's eight bit steps are one shift by 8
and one XOR with the table's entry, the table's entries being the bit steps of the byte values (R112:
any implementation is conforming iff it returns the same value for every sequence). -/
def Obligations.TableDrivenCrcIsTheCrc : Prop :=
  ∃ table : List Word, table.length = 256 ∧
    (∀ k, k < 256 → table[k]? = some (crcBits 8 (BitVec.ofNat 32 k))) ∧
    ∀ s : List Byte,
      crc32 s = s.foldl (fun (c : Word) b =>
          (c >>> 8) ^^^ table.getD ((c ^^^ BitVec.ofNat 32 b.toNat).toNat % 256) 0#32) 0xFFFFFFFF#32
        ^^^ 0xFFFFFFFF#32

/-! ### Chunks -/

/-- A command whose precondition fails ends in NO_TAG or NO_CHUNK and changes nothing else (R120, R121,
R124, R174). -/
def Obligations.MissingTagOrChunkIsReported : Prop :=
  ∀ s : State,
    (s.tValid = false → exec .chunkNew s = .next (s.completedWith 0x11#32 0#32 0#32)) ∧
    (s.cValid = false →
      exec .chunkSerialize s = .next (s.completedWith 0x12#32 0#32 0#32) ∧
      exec .chunkTextCheck s = .next (s.completedWith 0x12#32 0#32 0#32))

/-- CHUNK_NEW builds the chunk of the current tag and IBUF[0..IN_LEN), and changes no other register and
no other buffer (R120). -/
def Obligations.ChunkNewBuildsTheChunk : Prop :=
  ∀ s : State, s.tValid = true →
    ∃ t, exec .chunkNew s = .next t ∧
      t = { s.completedWith 0#32 0#32 0#32 with
        cLength := s.inLen, cType := s.tBytes, cCrc := t.cCrc, cValid := true, dbuf := t.dbuf } ∧
      (∀ i, i < s.inLen.toNat → t.byteAt .dbuf i = s.byteAt .ibuf i) ∧
      t.cCrc = crc32 ([wordByte s.tBytes 0, wordByte s.tBytes 1, wordByte s.tBytes 2,
        wordByte s.tBytes 3] ++ s.memRead .ibuf 0 s.inLen.toNat)

/-- CHUNK_SERIALIZE writes the frame of the chunk: length, tag, payload and checksum, each number with
its most significant byte first, and OUT_LEN; it changes no tag or chunk register and no other buffer
(R121, R75). -/
def Obligations.ChunkSerializeWritesTheFrame : Prop :=
  ∀ s : State, s.cValid = true → s.cLength.toNat ≤ Config.maxIbufSize →
    ∃ t, exec .chunkSerialize s = .next t ∧
      t = { s.completedWith 0#32 0#32 0#32 with outLen := t.outLen, obuf := t.obuf } ∧
      t.outLen.toNat = 12 + s.cLength.toNat ∧
      (∀ k, k < 4 → t.byteAt .obuf k = wordByte s.cLength k) ∧
      (∀ k, k < 4 → t.byteAt .obuf (4 + k) = wordByte s.cType k) ∧
      (∀ i, i < s.cLength.toNat → t.byteAt .obuf (8 + i) = s.byteAt .dbuf i) ∧
      (∀ k, k < 4 → t.byteAt .obuf (8 + s.cLength.toNat + k) = wordByte s.cCrc k)

/-- CHUNK_PARSE of a valid frame at IBUF index 0 commits the chunk, whatever bytes follow the frame, and
changes no other register and no other buffer (R122, R76). -/
def Obligations.ChunkParseCommitsAValidFrame : Prop :=
  ∀ (s : State) (len : Nat), len = (s.ibufWord 0).toNat →
    12 + len ≤ s.inLen.toNat →
    (∀ k, k < 4 → isAlpha (s.byteAt .ibuf (4 + k)) = true) →
    s.ibufWord (8 + len) = crc32 (s.memRead .ibuf 4 4 ++ s.memRead .ibuf 8 len) →
    ∃ t, exec .chunkParse s = .next t ∧
      t = { s.completedWith 0#32 0#32 0#32 with
        cLength := s.ibufWord 0, cType := s.ibufWord 4, cCrc := s.ibufWord (8 + len),
        cValid := true, dbuf := t.dbuf } ∧
      (∀ i, i < len → t.byteAt .dbuf i = s.byteAt .ibuf (8 + i))

/-- CHUNK_PARSE of a truncated frame ends in READ_ERROR, with the index at which the failing stage's read
starts and the bytes it needs: stages 1, 3, 4 and 6 (R122). -/
def Obligations.ChunkParseReportsTruncation : Prop :=
  ∀ (s : State) (n len : Nat), n = s.inLen.toNat → len = (s.ibufWord 0).toNat →
    (n < 4 → exec .chunkParse s = .next (s.completedWith 0x03#32 0#32 4#32)) ∧
    (4 ≤ n → n < 8 → exec .chunkParse s = .next (s.completedWith 0x03#32 4#32 4#32)) ∧
    (8 ≤ n → (∀ k, k < 4 → isAlpha (s.byteAt .ibuf (4 + k)) = true) → n < 8 + len →
      exec .chunkParse s = .next (s.completedWith 0x03#32 8#32 (s.ibufWord 0))) ∧
    ((∀ k, k < 4 → isAlpha (s.byteAt .ibuf (4 + k)) = true) → 8 + len ≤ n → n < 12 + len →
      exec .chunkParse s = .next (s.completedWith 0x03#32 (BitVec.ofNat 32 (8 + len)) 4#32))

/-- CHUNK_PARSE of a frame whose tag has a byte that is no letter ends in INVALID_CHUNK_TYPE with the
code of BAD_BYTE and the first such byte, if all 8 header bytes are there (R122). -/
def Obligations.ChunkParseReportsABadTag : Prop :=
  ∀ (s : State) (k : Nat), 8 ≤ s.inLen.toNat → k < 4 →
    isAlpha (s.byteAt .ibuf (4 + k)) = false →
    (∀ j, j < k → isAlpha (s.byteAt .ibuf (4 + j)) = true) →
    exec .chunkParse s =
      .next (s.completedWith 0x05#32 0x01#32 (BitVec.ofNat 32 (s.byteAt .ibuf (4 + k)).toNat))

/-- CHUNK_PARSE of a whole frame whose checksum differs ends in INVALID_CRC with the provided and the
computed value (R122). -/
def Obligations.ChunkParseReportsABadCrc : Prop :=
  ∀ (s : State) (len : Nat) (computed : Word), len = (s.ibufWord 0).toNat →
    computed = crc32 (s.memRead .ibuf 4 4 ++ s.memRead .ibuf 8 len) →
    12 + len ≤ s.inLen.toNat →
    (∀ k, k < 4 → isAlpha (s.byteAt .ibuf (4 + k)) = true) →
    s.ibufWord (8 + len) ≠ computed →
    exec .chunkParse s = .next (s.completedWith 0x07#32 (s.ibufWord (8 + len)) computed)

/-- Changing one bit of the checksum field of a frame that parses makes CHUNK_PARSE fail with INVALID_CRC,
the changed value provided and the old one computed (R115). -/
def Obligations.EveryChecksumBitIsChecked : Prop :=
  ∀ (s t s' : State) (k len : Nat), k < 32 → len = (s.ibufWord 0).toNat →
    exec .chunkParse s = .next t → t.errCode = 0#32 →
    s'.inLen = s.inLen →
    (∀ i, i < 8 + len → s'.byteAt .ibuf i = s.byteAt .ibuf i) →
    s'.ibufWord (8 + len) = s.ibufWord (8 + len) ^^^ (1#32 <<< k) →
    exec .chunkParse s' =
      .next (s'.completedWith 0x07#32 (s.ibufWord (8 + len) ^^^ (1#32 <<< k)) (s.ibufWord (8 + len)))

/-- CHUNK_TEXT_CHECK of a chunk completes OK if the payload is well-formed UTF-8 and otherwise ends in
TEXT_DECODE with the length of the prefix the scan accepts; it changes nothing else (R124). -/
def Obligations.ChunkTextCheckTestsThePayload : Prop :=
  ∀ (s : State) (d : List Byte), s.cValid = true → d = s.memRead .dbuf 0 s.cLength.toNat →
    (WellFormedUtf8 d → exec .chunkTextCheck s = .next (s.completedWith 0#32 0#32 0#32)) ∧
    (¬ WellFormedUtf8 d →
      exec .chunkTextCheck s =
        .next (s.completedWith 0x08#32 (BitVec.ofNat 32 (utf8ValidUpTo d)) 0#32))

/-- The scan of R125 stops at the first index at which no row of the table matches: the bytes before it
are well-formed, and if it is not the end no row matches there. -/
def Obligations.Utf8ScanStopsWhereNoRowMatches : Prop :=
  ∀ d : List Byte,
    utf8ValidUpTo d ≤ d.length ∧
    WellFormedUtf8 (d.take (utf8ValidUpTo d)) ∧
    (utf8ValidUpTo d < d.length → ∀ row ∈ utf8Rows, rowMatches row (d.drop (utf8ValidUpTo d)) = false) ∧
    (utf8ValidUpTo d = d.length ↔ WellFormedUtf8 d)

/-- What CHUNK_NEW builds, CHUNK_SERIALIZE writes and CHUNK_PARSE reads back: the chunk parsed from the
frame equals the chunk it was made from, for every tag of letters and every payload whose frame fits
IBUF (R126). -/
def Obligations.ParseOfSerializeIsTheChunk : Prop :=
  ∀ (s : State) (tag : Word) (d : List Byte), s.Idle →
    s.ibufSize ≤ Config.maxIbufSize →
    (∀ k, k < 4 → isAlpha (wordByte tag k) = true) → d.length + 12 ≤ s.ibufSize →
    ∃ s1 s2 s3 s4 s5,
      exec (.writeTagIn tag) s = .next s1 ∧ exec .tagFromBytes s1 = .next s2 ∧
      exec .chunkNew (loadIbuf d s2) = .next s3 ∧ exec .chunkSerialize s3 = .next s4 ∧
      exec .chunkParse (loadIbuf (s4.memRead .obuf 0 s4.outLen.toNat) s4) = .next s5 ∧
      s5.errCode = 0#32 ∧
      s3.cLength.toNat = d.length ∧ s3.cType = tag ∧ s3.memRead .dbuf 0 d.length = d ∧
      s5.cValid = true ∧ s5.cLength = s3.cLength ∧ s5.cType = s3.cType ∧ s5.cCrc = s3.cCrc ∧
      s5.memRead .dbuf 0 d.length = d

/-! ### Reads -/

/-- Each register accessor returns its register while BUSY = 0 and changes nothing of the block
(R135, R136, R138 to R140, R160 to R163). -/
def Obligations.RegisterReadsReturnTheRegister : Prop :=
  ∀ s : State, s.Idle →
    exec .chunkLength s = .next { s with reply := .word s.cLength .whole } ∧
    exec .chunkType s = .next { s with reply := .word s.cType .whole } ∧
    exec .chunkCrc s = .next { s with reply := .word s.cCrc .whole } ∧
    exec .chunkFlags s = .next { s with reply := .word (tagStatusWord s.cValid s.cType) .whole } ∧
    exec (.frameRead none) s = .next { s with reply := .word s.outLen .whole } ∧
    exec .readStatus s = .next { s with reply := .word s.status.toWord .whole } ∧
    exec .readErrCode s = .next { s with reply := .word s.errCode .whole } ∧
    exec .readErrInfo0 s = .next { s with reply := .word s.errInfo0 .whole } ∧
    exec .readErrInfo1 s = .next { s with reply := .word s.errInfo1 .whole } ∧
    exec .readCfgIbufSize s = .next { s with reply := .word s.cfgIbufSize .whole } ∧
    exec .readCfgDbufSize s = .next { s with reply := .word s.cfgIbufSize .whole } ∧
    exec .readCfgObufSize s = .next { s with reply := .word (s.cfgIbufSize + 12#32) .whole } ∧
    exec .readTagIn s = .next { s with reply := .word s.tagIn .whole } ∧
    exec .readInLen s = .next { s with reply := .word s.inLen .whole }

/-- CHUNK_DATA and FRAME_READ return the payload's and the frame's bytes, 0x00 beyond the buffer, and a
free value between (R53, R137, R140). The model chooses the form of the free value (log entry 3) and that
each such read is a fresh draw also before the first commit since reset, where R48, R190 and U10 would keep the
byte drawn at reset (DESIGN CHOICE, log entry 16). -/
def Obligations.BufferReadsReturnTheBytes : Prop :=
  ∀ (s : State) (i : Nat), s.Idle →
    (i < s.ibufSize → s.cValid = true → i < s.cLength.toNat →
      exec (.chunkData i) s = .next { s with reply := .byte (s.byteAt .dbuf i) }) ∧
    (i < s.ibufSize → (s.cValid = false ∨ s.cLength.toNat ≤ i) →
      exec (.chunkData i) s =
        .next { s with reply := .byte (Config.freeByte s.draws), draws := s.draws + 1 }) ∧
    (s.ibufSize ≤ i → exec (.chunkData i) s = .next { s with reply := .byte 0x00#8 }) ∧
    (i < s.ibufSize + 12 → i < s.outLen.toNat →
      exec (.frameRead (some i)) s = .next { s with reply := .byte (s.byteAt .obuf i) }) ∧
    (i < s.ibufSize + 12 → s.outLen.toNat ≤ i →
      exec (.frameRead (some i)) s =
        .next { s with reply := .byte (Config.freeByte s.draws), draws := s.draws + 1 }) ∧
    (s.ibufSize + 12 ≤ i → exec (.frameRead (some i)) s = .next { s with reply := .byte 0x00#8 })

/-- While BUSY = 1 a read of a result register, or of a byte in range of DBUF or OBUF, returns a free value,
the reserved bits of ERR_CODE, T_STATUS and C_STATUS reading 0 (R42); STATUS, CMD, TAG_IN, IN_LEN, CFG_*, the
reserved offsets and IBUF read as they always do (the form of the free value is the model's choice, log
entry 3). -/
def Obligations.ReadsWhileBusy : Prop :=
  ∀ s : State, s.Busy →
    (∀ (r : RegName) (view : View),
      r ∈ [RegName.errInfo0, .errInfo1, .tBytes, .cLength, .cType, .cCrc, .outLen] →
      performAccess (.regRead r.offset 32 view) s =
        { s with reply := .word (Config.freeWord s.draws) view, draws := s.draws + 1 }) ∧
    (∀ view : View, performAccess (.regRead RegName.errCode.offset 32 view) s =
      { s with reply := .word (Config.freeWord s.draws &&& 0xFF#32) view, draws := s.draws + 1 }) ∧
    (∀ (r : RegName) (view : View), r ∈ [RegName.tStatus, .cStatus] →
      performAccess (.regRead r.offset 32 view) s =
        { s with reply := .word (Config.freeWord s.draws &&& 0x3F#32) view, draws := s.draws + 1 }) ∧
    (∀ (i : Nat), i < s.ibufSize →
      performAccess (.bufRead .dbuf i) s =
        { s with reply := .byte (Config.freeByte s.draws), draws := s.draws + 1 }) ∧
    (∀ (i : Nat), i < s.ibufSize + 12 →
      performAccess (.bufRead .obuf i) s =
        { s with reply := .byte (Config.freeByte s.draws), draws := s.draws + 1 }) ∧
    (∀ (r : RegName) (view : View),
      r ∈ [RegName.status, .cmd, .tagIn, .inLen, .cfgIbufSize, .cfgDbufSize, .cfgObufSize] →
      performAccess (.regRead r.offset 32 view) s = { s with reply := .word (regWord r s) view }) ∧
    regWord .cmd s = 0#32 ∧
    (∀ (off : Nat) (view : View), 0x44 ≤ off →
      performAccess (.regRead off 32 view) s = { s with reply := .word 0#32 view }) ∧
    (∀ (i : Nat), i < s.ibufSize →
      performAccess (.bufRead .ibuf i) s = { s with reply := .byte (s.byteAt .ibuf i) })

/-- R51: an access with a misaligned offset, with one at or above 0x100 or of another width is not
performed: a read returns 0, a write is dropped, and neither has another effect; any other reaches the
register at its offset. -/
def Obligations.OnlyAlignedWordsReachRegisters : Prop :=
  (∀ (s : State) (off width : Nat) (view : View) (v : Word), s.rst = false →
    (off % 4 ≠ 0 ∨ 0x100 ≤ off ∨ width ≠ 32) →
    performAccess (.regRead off width view) s = { s with reply := .word 0#32 view } ∧
    performAccess (.regWrite off width v) s = s) ∧
  (∀ (s : State) (r : RegName) (view : View), s.Idle →
    r.offset % 4 = 0 ∧ r.offset < 0x100 ∧
    performAccess (.regRead r.offset 32 view) s = { s with reply := .word (regWord r s) view }) ∧
  (∀ (s : State) (v : Word), s.Idle →
    (performAccess (.regWrite RegName.cmd.offset 32 v) s).running = some v ∧
    (performAccess (.regWrite RegName.tagIn.offset 32 v) s).tagIn = v ∧
    (performAccess (.regWrite RegName.inLen.offset 32 v) s).inLen.toNat = min v.toNat s.ibufSize)

/-- A reserved offset reads 0 and drops writes, a read-only register drops writes, and OVR is not set;
reserved bits read 0, busy or not: all of CMD, bits 31:4 of STATUS, 31:8 of ERR_CODE, 31:6 of T_STATUS and of
C_STATUS (R42). -/
def Obligations.ReservedAndReadOnlyOffsetsDropWrites : Prop :=
  ∀ (s : State) (view : View) (v : Word), s.rst = false →
    (∀ off, 0x44 ≤ off → off ≤ 0xFC →
      performAccess (.regRead off 32 view) s = { s with reply := .word 0#32 view } ∧
      performAccess (.regWrite off 32 v) s = s) ∧
    (∀ r : RegName, r ≠ .cmd → r ≠ .tagIn → r ≠ .inLen →
      performAccess (.regWrite r.offset 32 v) s = s) ∧
    (∀ (r : RegName) (bits : Nat), s.Inv →
      (r, bits) ∈ [(RegName.cmd, 0), (.status, 4), (.errCode, 8), (.tStatus, 6), (.cStatus, 6)] →
      ∃ value draws,
        performAccess (.regRead r.offset 32 view) s =
          { s with reply := .word value view, draws := draws } ∧
        value.toNat < 2 ^ bits)

/-- No read has a side effect on the block: only what the host was told and the number of free values
drawn change (R59; these two are the model's own, log entries 3 and 7). -/
def Obligations.ReadsHaveNoSideEffect : Prop :=
  ∀ (s : State) (a : Access), ((∃ off width view, a = .regRead off width view) ∨ ∃ sp i, a = .bufRead sp i) →
    ∃ reply draws, performAccess a s = { s with reply := reply, draws := draws } ∧
      (draws = s.draws ∨ draws = s.draws + 1)

/-! ### Reset -/

/-- R190: when `rst` is asserted every register takes its reset value, a running command is abandoned, and
every buffer byte is a new free draw; the parameter, the host's entries and what it was told stay
(how the draws are numbered is the model's choice, log entries 2 and 4). -/
def Obligations.ResetRestoresTheResetState : Prop :=
  ∀ (s : State) (rest : List Input), s.inputs = .rst true :: rest →
    ∃ t, step s = .next t ∧
      t = { State.resetWith s.ibufSize with
        rst := true, inputs := rest, reply := s.reply, draws := s.draws, epoch := s.epoch + 1 } ∧
      (∀ sp i, t.byteAt sp i = Config.unwrittenByte (s.epoch + 1) sp i)

/-- R192: while `rst` is asserted no transaction is performed: writes are dropped and reads return free
values; after `rst` is deasserted the block is in its reset state (the form of the free values is the
model's choice, log entries 3 and 4). -/
def Obligations.NothingIsPerformedUnderReset : Prop :=
  (∀ (s : State), s.rst = true →
    (∀ off width v, performAccess (.regWrite off width v) s = s) ∧
    (∀ sp i b, performAccess (.bufWrite sp i b) s = s) ∧
    (∀ off width view, performAccess (.regRead off width view) s =
      { s with reply := .word (Config.freeWord s.draws) view, draws := s.draws + 1 }) ∧
    (∀ sp i, performAccess (.bufRead sp i) s =
      { s with reply := .byte (Config.freeByte s.draws), draws := s.draws + 1 })) ∧
  (∀ (s : State) (accesses : List Access),
    ∃ reply draws, deassertReset (accesses.foldl (fun t a => performAccess a t) (assertReset s)) =
      { State.resetWith s.ibufSize with
        inputs := s.inputs, reply := reply, draws := draws, epoch := s.epoch + 1 })

/-- R48: after reset every register of the map reads its reset value, for every size the parameter may
have, and no command is running; every buffer byte is a free draw, whose form is the model's choice (log
entry 2). -/
def Obligations.RegistersAfterReset : Prop :=
  ∀ n : Nat, Config.minIbufSize ≤ n → n ≤ Config.maxIbufSize →
    (∀ r ∈ RegName.all, r ∉ [RegName.cfgIbufSize, .cfgDbufSize, .cfgObufSize] →
      regWord r (State.resetWith n) = 0#32) ∧
    (regWord .cfgIbufSize (State.resetWith n)).toNat = n ∧
    (regWord .cfgDbufSize (State.resetWith n)).toNat = n ∧
    (regWord .cfgObufSize (State.resetWith n)).toNat = n + 12 ∧
    (State.resetWith n).running = none ∧
    (∀ sp i, (State.resetWith n).byteAt sp i = Config.unwrittenByte 0 sp i)

/-! ### Invariants and whole-machine rules -/

/-- The invariant holds right after reset, for every size the parameter may have. -/
def Obligations.ResetMeetsTheInvariant : Prop :=
  ∀ n : Nat, Config.minIbufSize ≤ n → n ≤ Config.maxIbufSize → (State.resetWith n).Inv

/-- Every step keeps the invariant: the sizes (R8, R33), STATUS (R26 to R29), the tag (R44), the chunk
with its checksum (R43), the produced error codes (R170) and the memories' canonical form
(what DBUF and OBUF list is the model's choice, log entry 11). -/
def Obligations.EveryStepKeepsTheInvariant : Prop :=
  ∀ s t : State, s.Inv → step s = .next t → t.Inv

/-- STATUS reads as one of 0x0, 0x1, 0x9, 0x2, 0x6, 0xA and 0xE (R26). -/
def Obligations.StatusReadsALegalValue : Prop :=
  ∀ s : State, s.Inv →
    s.status.toWord ∈ [0x0#32, 0x1#32, 0x9#32, 0x2#32, 0x6#32, 0xA#32, 0xE#32] ∧
    (s.status.err = true ↔ s.status.done = true ∧ s.errCode ≠ 0#32)

/-- R173: a command that ends with an error changes only STATUS and the three error registers; the engine
is then free. -/
def Obligations.FailedCommandKeepsTheState : Prop :=
  ∀ (i : Instr) (w : Word) (s t : State), encode i = .command w → exec i s = .next t →
    t.errCode ≠ 0#32 →
    t = { s with
      status := t.status, errCode := t.errCode, errInfo0 := t.errInfo0, errInfo1 := t.errInfo1,
      running := none }

/-- Every command completes with DONE, with ERR iff its code is not 0, and with a produced code: MAX_LENGTH
and INVALID_CHUNK_DATA are never raised (R123, R151, R170). -/
def Obligations.CommandsCompleteWithAProducedCode : Prop :=
  ∀ (i : Instr) (w : Word) (s : State), encode i = .command w →
    ∃ t, exec i s = .next t ∧ t.running = none ∧
      t.status = ⟨false, true, decide (t.errCode ≠ 0#32), s.status.ovr⟩ ∧
      t.errCode ∈ [0x00#32, 0x01#32, 0x02#32, 0x03#32, 0x05#32, 0x07#32, 0x08#32, 0x10#32, 0x11#32,
        0x12#32] ∧
      (t.errCode = 0#32 → t.errInfo0 = 0#32 ∧ t.errInfo1 = 0#32)

/-- R128: C_LENGTH, C_TYPE, C_CRC, DBUF and C_VALID change only together, by a successful CHUNK_NEW or
CHUNK_PARSE. -/
def Obligations.ChunkChangesOnlyAsAWhole : Prop :=
  ∀ (i : Instr) (s t : State), exec i s = .next t →
    (t.cLength = s.cLength ∧ t.cType = s.cType ∧ t.cCrc = s.cCrc ∧ t.dbuf = s.dbuf ∧
      t.cValid = s.cValid) ∨
    ((i = .chunkNew ∨ i = .chunkParse) ∧ t.errCode = 0#32 ∧ t.cValid = true ∧
      t.cCrc = chunkCrc t.cType (t.memRead .dbuf 0 t.cLength.toNat))

/-- T_BYTES and T_VALID change only by a successful TAG_FROM_BYTES or TAG_FROM_TEXT, which set T_VALID;
OUT_LEN and OBUF only by a successful CHUNK_SERIALIZE, which leaves OUT_LEN = 12 + C_LENGTH (R34, R40,
R198). -/
def Obligations.TagAndFrameChangeOnlyByTheirCommands : Prop :=
  ∀ (i : Instr) (s t : State), exec i s = .next t →
    ((t.tBytes = s.tBytes ∧ t.tValid = s.tValid) ∨
      ((i = .tagFromBytes ∨ i = .tagFromText) ∧ t.errCode = 0#32 ∧ t.tValid = true ∧
        ∀ k, k < 4 → isAlpha (wordByte t.tBytes k) = true)) ∧
    ((t.outLen = s.outLen ∧ t.obuf = s.obuf) ∨
      (i = .chunkSerialize ∧ t.errCode = 0#32 ∧ t.outLen = 12#32 + s.cLength))

/-- No command writes TAG_IN, IN_LEN, IBUF or the parameter, and no instruction writes the parameter; the
inputs change only by the host's own write of each (R52, R163, R199). -/
def Obligations.OnlyTheHostWritesTheInputs : Prop :=
  ∀ (i : Instr) (s t : State), exec i s = .next t →
    t.cfgIbufSize = s.cfgIbufSize ∧
    (t.tagIn = s.tagIn ∨ ∃ v, i = .writeTagIn v ∧ s.Idle ∧ t.tagIn = v) ∧
    (t.inLen = s.inLen ∨ ∃ v, i = .writeInLen v ∧ s.Idle ∧ t.inLen.toNat = min v.toNat s.ibufSize) ∧
    (t.ibuf = s.ibuf ∨ ∃ k b, i = .writeIbuf k b ∧ s.Idle ∧ k < s.ibufSize ∧
      ∀ j, t.byteAt .ibuf j = if j = k then b else s.byteAt .ibuf j)

/-- A command starts only by an accepted CMD write, and one that runs ends only by its completion: no other
transaction changes what is running, and none sets BUSY, DONE or ERR (R45, R150, R152). -/
def Obligations.OnlyAcceptanceStartsACommand : Prop :=
  ∀ (i : Instr) (a : Access) (s t : State), encode i = .access a → exec i s = .next t →
    (t.running = s.running ∧ t.status.busy = s.status.busy ∧ t.status.done = s.status.done ∧
      t.status.err = s.status.err) ∨
    (∃ w, i = .writeCmd w ∧ s.Idle ∧ t.running = some w ∧
      t.status = ⟨true, false, false, false⟩)

/-- A command's error code and diagnostic words (R175) and its results (R127) are a function of its own
operands of R74: two states that agree on them give the same. DBUF and OBUF are compared as listed bytes; that
those above the length agree too is the model's choice (DESIGN CHOICE, log entry 11), for R120 and R121 leave
them unspecified. -/
def Obligations.CommandsDependOnTheirOperandsOnly : Prop :=
  ∀ (i : Instr) (s s' t t' : State), operandsAgree i s s' →
    exec i s = .next t → exec i s' = .next t' →
    t.errCode = t'.errCode ∧ t.errInfo0 = t'.errInfo0 ∧ t.errInfo1 = t'.errInfo1 ∧
    (t.errCode = 0#32 → resultsAgree i t t')

/-- Every accepted command completes, or is abandoned by reset, within as many steps as what has yet to
arrive takes, and one (R152, R202; the bound rests on the model's choice of log entry 6). -/
def Obligations.RunningCommandCompletes : Prop :=
  ∀ (s : State) (w : Word), s.Inv → s.running = some w →
    ∃ n t, n ≤ inputCost s.inputs + 1 ∧ Sys2Proof.core.run n s = .next t ∧ t.running = none ∧
      (t.status.done = true ∨ t.rst = true)
end

