-- ==== Sys2Proof/Laws/Bytes.lean ====
section
/-! SUPPORT. The big-endian packing, slices, the flags of a packed tag, and the tag check. -/

namespace Sys2Proof.Machine

/-! ### Packing -/

/-- Byte `k` of a word as a number. -/
theorem wordByte_toNat (v : Word) (k : Nat) : (wordByte v k).toNat = v.toNat / 2 ^ (24 - 8 * k) % 256 := by
  simp [wordByte, BitVec.extractLsb'_toNat, Nat.shiftRight_eq_div_pow]

/-- A byte appended below a bit vector, as a number. -/
theorem toNat_append_byte {n : Nat} (x : BitVec n) (b : Byte) :
    (x ++ b).toNat = x.toNat * 2 ^ 8 + b.toNat := by
  rw [BitVec.toNat_append, Nat.shiftLeft_eq, Nat.mul_comm, Nat.two_pow_add_eq_or_of_lt b.isLt]

/-- A packed word as a number. -/
theorem be32_toNat (b0 b1 b2 b3 : Byte) : (be32 b0 b1 b2 b3).toNat =
    b0.toNat * 2 ^ 24 + b1.toNat * 2 ^ 16 + b2.toNat * 2 ^ 8 + b3.toNat := by
  simp only [be32, toNat_append_byte]
  omega

@[simp] theorem wordByte_be32_zero (b0 b1 b2 b3 : Byte) : wordByte (be32 b0 b1 b2 b3) 0 = b0 := by
  apply BitVec.eq_of_toNat_eq
  have := b0.isLt; have := b1.isLt; have := b2.isLt; have := b3.isLt
  rw [wordByte_toNat, be32_toNat]; omega

@[simp] theorem wordByte_be32_one (b0 b1 b2 b3 : Byte) : wordByte (be32 b0 b1 b2 b3) 1 = b1 := by
  apply BitVec.eq_of_toNat_eq
  have := b0.isLt; have := b1.isLt; have := b2.isLt; have := b3.isLt
  rw [wordByte_toNat, be32_toNat]; omega

@[simp] theorem wordByte_be32_two (b0 b1 b2 b3 : Byte) : wordByte (be32 b0 b1 b2 b3) 2 = b2 := by
  apply BitVec.eq_of_toNat_eq
  have := b0.isLt; have := b1.isLt; have := b2.isLt; have := b3.isLt
  rw [wordByte_toNat, be32_toNat]; omega

@[simp] theorem wordByte_be32_three (b0 b1 b2 b3 : Byte) : wordByte (be32 b0 b1 b2 b3) 3 = b3 := by
  apply BitVec.eq_of_toNat_eq
  have := b0.isLt; have := b1.isLt; have := b2.isLt; have := b3.isLt
  rw [wordByte_toNat, be32_toNat]; omega

/-- Packing the four bytes of a word gives the word. -/
@[simp] theorem be32_wordByte (v : Word) :
    be32 (wordByte v 0) (wordByte v 1) (wordByte v 2) (wordByte v 3) = v := by
  apply BitVec.eq_of_toNat_eq
  have := v.isLt
  rw [be32_toNat, wordByte_toNat, wordByte_toNat, wordByte_toNat, wordByte_toNat]
  omega

@[simp] theorem bytesBE32_be32 (b0 b1 b2 b3 : Byte) : bytesBE32 (be32 b0 b1 b2 b3) = [b0, b1, b2, b3] := by
  simp [bytesBE32]

@[simp] theorem bytesBE32_length (v : Word) : (bytesBE32 v).length = 4 := rfl

/-- Reading 4 bytes that a word was written as gives the word. -/
theorem be32At_bytesBE32 (v : Word) (pre post : List Byte) :
    be32At (pre ++ bytesBE32 v ++ post) pre.length = v := by
  have h : ∀ k, k < 4 → (pre ++ bytesBE32 v ++ post).getD (pre.length + k) 0#8 = (bytesBE32 v).getD k 0#8 := by
    intro k hk
    simp only [List.getD_eq_getElem?_getD, List.append_assoc]
    rw [List.getElem?_append_right (by omega), List.getElem?_append_left (by simp; omega)]
    simp
  rw [be32At, show pre.length = pre.length + 0 from rfl, h 0 (by omega), Nat.add_zero, h 1 (by omega), h 2 (by omega), h 3 (by omega)]
  exact be32_wordByte v

/-! ### The tag check -/

/-- The check finds nothing exactly when all four bytes are letters. -/
theorem tagCheck_none (t : Word) : tagCheck t = none ↔ allAlpha t = true := by
  simp [tagCheck, allAlpha, List.find?_eq_none]

/-- The check finds the byte at the lowest position that is no letter (spec/40_typetag.md R93). -/
theorem tagCheck_some (t : Word) (b : Byte) :
    tagCheck t = some b ↔
      ∃ k, k < 4 ∧ b = wordByte t k ∧ isAlpha (wordByte t k) = false ∧
        ∀ j, j < k → isAlpha (wordByte t j) = true := by
  have e : tagCheck t =
      if isAlpha (wordByte t 0) = false then some (wordByte t 0)
      else if isAlpha (wordByte t 1) = false then some (wordByte t 1)
      else if isAlpha (wordByte t 2) = false then some (wordByte t 2)
      else if isAlpha (wordByte t 3) = false then some (wordByte t 3)
      else none := by
    simp only [tagCheck, bytesBE32, List.find?]
    cases isAlpha (wordByte t 0) <;> cases isAlpha (wordByte t 1) <;>
      cases isAlpha (wordByte t 2) <;> cases isAlpha (wordByte t 3) <;> rfl
  rw [e]
  constructor
  · intro h
    split at h
    · exact ⟨0, by omega, by simpa using h.symm, by assumption, by omega⟩
    split at h
    · refine ⟨1, by omega, by simpa using h.symm, by assumption, ?_⟩
      intro j hj; obtain rfl : j = 0 := by omega
      simpa using ‹¬ isAlpha (wordByte t 0) = false›
    split at h
    · refine ⟨2, by omega, by simpa using h.symm, by assumption, ?_⟩
      intro j hj
      obtain rfl | rfl : j = 0 ∨ j = 1 := by omega
      · simpa using ‹¬ isAlpha (wordByte t 0) = false›
      · simpa using ‹¬ isAlpha (wordByte t 1) = false›
    split at h
    · refine ⟨3, by omega, by simpa using h.symm, by assumption, ?_⟩
      intro j hj
      obtain rfl | rfl | rfl : j = 0 ∨ j = 1 ∨ j = 2 := by omega
      · simpa using ‹¬ isAlpha (wordByte t 0) = false›
      · simpa using ‹¬ isAlpha (wordByte t 1) = false›
      · simpa using ‹¬ isAlpha (wordByte t 2) = false›
    · exact absurd h (by simp)
  · rintro ⟨k, hk, rfl, hbad, hok⟩
    obtain rfl | rfl | rfl | rfl : k = 0 ∨ k = 1 ∨ k = 2 ∨ k = 3 := by omega
    · simp [hbad]
    · simp [hbad, hok 0]
    · simp [hbad, hok 0, hok 1]
    · simp [hbad, hok 0, hok 1, hok 2]

/-- A constructed tag is four letters. -/
theorem allAlpha_iff (t : Word) :
    allAlpha t = true ↔ ∀ k, k < 4 → isAlpha (wordByte t k) = true := by
  simp only [allAlpha, bytesBE32, List.all_cons, List.all_nil, Bool.and_true, Bool.and_eq_true]
  constructor
  · rintro ⟨h0, h1, h2, h3⟩ k hk
    obtain rfl | rfl | rfl | rfl : k = 0 ∨ k = 1 ∨ k = 2 ∨ k = 3 := by omega
    all_goals assumption
  · intro h
    exact ⟨h 0 (by omega), h 1 (by omega), h 2 (by omega), h 3 (by omega)⟩

/-! ### Words of flags -/

/-- The bits of a word built of six flags. -/
theorem flagWords_bits : ∀ a b c d e f : Bool,
    let w := flagWord a ||| flagWord b <<< 1 ||| flagWord c <<< 2 ||| flagWord d <<< 3 |||
      flagWord e <<< 4 ||| flagWord f <<< 5
    w.getLsbD 0 = a ∧ w.getLsbD 1 = b ∧ w.getLsbD 2 = c ∧ w.getLsbD 3 = d ∧ w.getLsbD 4 = e ∧
      w.getLsbD 5 = f ∧ w.toNat < 64 := by
  decide

/-- The flags of T_STATUS and C_STATUS, each gated by VALID (spec/10_state.md R35, R39). -/
theorem tagStatusWord_bits (valid : Bool) (t : Word) :
    (tagStatusWord valid t).getLsbD 0 = valid ∧
    (tagStatusWord valid t).getLsbD 1 = (valid && critical t) ∧
    (tagStatusWord valid t).getLsbD 2 = (valid && publicTag t) ∧
    (tagStatusWord valid t).getLsbD 3 = (valid && rsvOk t) ∧
    (tagStatusWord valid t).getLsbD 4 = (valid && safeToCopy t) ∧
    (tagStatusWord valid t).getLsbD 5 = (valid && tagOk t) ∧
    (tagStatusWord valid t).toNat < 64 := by
  cases valid
  · simp [tagStatusWord]
  · simpa [tagStatusWord] using
      flagWords_bits true (critical t) (publicTag t) (rsvOk t) (safeToCopy t) (tagOk t)

/-- The bits of STATUS (spec/10_state.md R25). -/
theorem Status.toWord_bits (st : Status) :
    st.toWord.getLsbD 0 = st.busy ∧ st.toWord.getLsbD 1 = st.done ∧ st.toWord.getLsbD 2 = st.err ∧
      st.toWord.getLsbD 3 = st.ovr := by
  obtain ⟨a, b, c, d⟩ := st
  have h := flagWords_bits a b c d false false
  have z : ∀ w : Word, w ||| flagWord false <<< 4 ||| flagWord false <<< 5 = w := by
    intro w; simp [flagWord]
  simp only [z] at h
  exact ⟨h.1, h.2.1, h.2.2.1, h.2.2.2.1⟩

/-- Bits 31:4 of STATUS are 0 (spec/10_state.md R25). -/
theorem Status.toWord_lt (st : Status) : st.toWord.toNat < 16 := by
  obtain ⟨a, b, c, d⟩ := st
  revert a b c d
  decide

/-- A mask of the low bits leaves a word that has no others. -/
theorem word_and_lowMask {w : Word} (k : Nat) (hk : k ≤ 32) (hw : w.toNat < 2 ^ k) :
    w &&& BitVec.ofNat 32 (2 ^ k - 1) = w := by
  have hp : 2 ^ k ≤ 2 ^ 32 := Nat.pow_le_pow_right (by decide) hk
  apply BitVec.eq_of_toNat_eq
  rw [BitVec.toNat_and, BitVec.toNat_ofNat, Nat.mod_eq_of_lt (by omega),
    Nat.and_two_pow_sub_one_eq_mod, Nat.mod_eq_of_lt hw]

end Sys2Proof.Machine
end

