-- ==== Sys2Proof/Laws/Encoding.lean ====
section
/-! SUPPORT. The decoder and the encoder agree, row by row. -/

namespace Sys2Proof

open Sys2Proof.Machine

/-- A row of the REG_READ table is the encoding of its instruction. -/
theorem encode_regReadRow {r : Nat × View × Instr} (h : r ∈ regReadRows) :
    encode r.2.2 = .access (.regRead r.1 32 r.2.1) := by
  simp only [regReadRows, List.mem_cons, List.not_mem_nil, or_false] at h
  rcases h with h | h | h | h | h | h | h | h | h | h | h | h | h | h | h | h | h | h | h | h | h <;>
    (subst h; rfl)

/-- What a RegRead decodes to encodes to it. -/
theorem encode_of_decodeRegRead {off : Nat} {view : View} {i : Instr}
    (h : decodeRegRead off view = .ok i) : encode i = .access (.regRead off 32 view) := by
  unfold decodeRegRead at h
  split at h
  · rename_i r hf
    have hm := encode_regReadRow (List.mem_of_find?_eq_some hf)
    have hp := List.find?_some hf
    simp only [Bool.and_eq_true, beq_iff_eq] at hp
    cases h
    rw [hm, hp.1, hp.2]
  · exact absurd h (by simp)

/-- What a RegWrite decodes to encodes to it. -/
theorem encode_of_decodeRegWrite {off : Nat} {v : Word} {i : Instr}
    (h : decodeRegWrite off v = .ok i) : encode i = .access (.regWrite off 32 v) := by
  unfold decodeRegWrite at h
  split at h
  · cases h; subst off; rfl
  · split at h
    · cases h; subst off; rfl
    · split at h
      · cases h; subst off; rfl
      · exact absurd h (by simp)

/-- What a transaction decodes to encodes to it. -/
theorem encode_of_decodeAccess {a : Access} {i : Instr} (h : decodeAccess a = .ok i) :
    encode i = .access a := by
  cases a with
  | regRead off width view =>
    simp only [decodeAccess] at h
    split at h
    · subst width; exact encode_of_decodeRegRead h
    · exact absurd h (by simp)
  | regWrite off width v =>
    simp only [decodeAccess] at h
    split at h
    · subst width; exact encode_of_decodeRegWrite h
    · exact absurd h (by simp)
  | bufRead sp k =>
    cases sp with
    | ibuf => exact absurd h (by simp [decodeAccess])
    | dbuf => cases h; rfl
    | obuf => cases h; rfl
  | bufWrite sp k b =>
    cases sp with
    | ibuf => cases h; rfl
    | dbuf => exact absurd h (by simp [decodeAccess])
    | obuf => exact absurd h (by simp [decodeAccess])

/-- A word is legal exactly when it is one of the seven operation codes. -/
theorem legalCommandWord_iff (w : Word) : legalCommandWord w = true ↔ w.toNat ≤ 6 := by
  simp only [legalCommandWord, Bool.and_eq_true, beq_iff_eq, decide_eq_true_eq, BitVec.le_def,
    ← BitVec.toNat_inj, BitVec.extractLsb_toNat, BitVec.toNat_ofNat, Nat.shiftRight_eq_div_pow]
  have := w.isLt
  omega

/-- An illegal word selects no command. -/
theorem decodeCommand_illegal {w : Word} (h : legalCommandWord w = false) :
    decodeCommand w = .illegal w := by
  have h6 : 6 < w.toNat := by
    by_contra hc
    exact absurd ((legalCommandWord_iff w).2 (by omega)) (by simp [h])
  have hnone : commandRows.find? (fun r => w &&& r.1 == r.2.1) = none := by
    have hmask : w &&& 0xFFFFFFFF#32 = w := BitVec.and_allOnes
    rw [List.find?_eq_none]
    intro r hr hm
    simp only [commandRows, List.mem_cons, List.not_mem_nil, or_false] at hr
    rcases hr with hr | hr | hr | hr | hr | hr | hr <;>
      (subst hr
       rw [beq_iff_eq, hmask] at hm
       subst hm
       exact absurd h6 (by decide))
  rw [decodeCommand, hnone]

/-- A legal word is the word of the command it selects. -/
theorem encode_decodeCommand (w : Word) : encode (decodeCommand w) = .command w := by
  cases h : legalCommandWord w
  · rw [decodeCommand_illegal h]; rfl
  · have h6 := (legalCommandWord_iff w).1 h
    have hw : w = BitVec.ofNat 32 w.toNat := by simp
    generalize w.toNat = n at h6 hw
    subst hw
    obtain rfl | rfl | rfl | rfl | rfl | rfl | rfl :
        n = 0 ∨ n = 1 ∨ n = 2 ∨ n = 3 ∨ n = 4 ∨ n = 5 ∨ n = 6 := by omega
    all_goals rfl

end Sys2Proof
end

