-- ==== Sys2Proof/Laws/Memory.lean ====
section
/-! SUPPORT. The memory operations: a read after a write, and the canonical form they keep. -/

namespace Sys2Proof.Machine

/-! ### Reads -/

@[simp] theorem Memory.read?_nil (a : Nat) : Memory.read? [] a = none := rfl

theorem Memory.read?_cons (c : Host.Cell) (m : Memory) (a : Nat) :
    Memory.read? (c :: m) a = if c.1 = a then some c.2 else Memory.read? m a := rfl

/-- An index is listed exactly when reading it gives a byte. -/
theorem Memory.read?_isSome (m : Memory) (a : Nat) :
    (Memory.read? m a).isSome = true ↔ a ∈ m.map Prod.fst := by
  induction m with
  | nil => simp
  | cons c m ih =>
    rw [Memory.read?_cons]
    by_cases h : c.1 = a
    · simp [h]
    · have h' : ¬ a = c.1 := fun e => h e.symm
      simp [h, h', ih]

/-! ### Writes -/

theorem Memory.write_cons (c : Host.Cell) (m : Memory) (a : Nat) (b : Byte) :
    Memory.write (c :: m) a b =
      if a < c.1 then (a, b) :: c :: m
      else if a = c.1 then (a, b) :: m
      else c :: Memory.write m a b := rfl

/-- A read after a write to the same index gives the byte written. -/
@[simp] theorem Memory.read?_write_same (m : Memory) (a : Nat) (b : Byte) :
    Memory.read? (Memory.write m a b) a = some b := by
  induction m with
  | nil => simp [Memory.write, Memory.read?]
  | cons c m ih =>
    rw [Memory.write_cons]
    split
    · simp [Memory.read?_cons]
    · split
      · simp [Memory.read?_cons]
      · rename_i h
        have h' : ¬ c.1 = a := fun e => h e.symm
        simp [Memory.read?_cons, h', ih]

/-- A write leaves every other index alone. -/
theorem Memory.read?_write_other (m : Memory) (b : Byte) {a x : Nat} (h : x ≠ a) :
    Memory.read? (Memory.write m a b) x = Memory.read? m x := by
  have h' : ¬ a = x := fun e => h e.symm
  induction m with
  | nil => simp [Memory.write, Memory.read?, h']
  | cons c m ih =>
    rw [Memory.write_cons]
    split
    · simp [Memory.read?_cons, h']
    · split
      · rename_i hc
        have : ¬ c.1 = x := by omega
        simp [Memory.read?_cons, h', this]
      · simp [Memory.read?_cons, ih]

/-- The entries of a written memory are the entry written and entries that were there. -/
theorem Memory.mem_write {m : Memory} {a : Nat} {b : Byte} {c : Host.Cell}
    (h : c ∈ Memory.write m a b) : c = (a, b) ∨ c ∈ m := by
  induction m with
  | nil => simpa [Memory.write] using h
  | cons d m ih =>
    rw [Memory.write_cons] at h
    split at h
    · simpa using h
    · split at h
      · rcases List.mem_cons.1 h with h | h
        · exact .inl h
        · exact .inr (List.mem_cons_of_mem _ h)
      · rcases List.mem_cons.1 h with h | h
        · exact .inr (by simp [h])
        · rcases ih h with h | h
          · exact .inl h
          · exact .inr (List.mem_cons_of_mem _ h)

/-! ### The canonical form -/

/-- The canonical form says that the listed indices are pairwise rising. -/
theorem Memory.wf_iff (m : Memory) : Memory.wf m = true ↔ (m.map Prod.fst).Pairwise (· < ·) := by
  induction m with
  | nil => simp [Memory.wf]
  | cons c m ih =>
    cases m with
    | nil => simp [Memory.wf]
    | cons d m =>
      simp only [Memory.wf, Bool.and_eq_true, decide_eq_true_eq, ih, List.map_cons,
        List.pairwise_cons, List.mem_cons, List.mem_map]
      constructor
      · rintro ⟨hcd, hd, hm⟩
        refine ⟨?_, hd, hm⟩
        rintro x (rfl | hx)
        · exact hcd
        · exact lt_trans hcd (hd x hx)
      · rintro ⟨hc, hd, hm⟩
        exact ⟨hc _ (.inl rfl), hd, hm⟩

/-- A memory with no entry is in canonical form. -/
theorem Memory.wf_nil : Memory.wf [] = true := rfl

/-- A write keeps the canonical form. -/
theorem Memory.wf_write {m : Memory} (a : Nat) (b : Byte) (h : Memory.wf m = true) :
    Memory.wf (Memory.write m a b) = true := by
  rw [Memory.wf_iff] at h ⊢
  induction m with
  | nil => simp [Memory.write]
  | cons c m ih =>
    rw [List.map_cons, List.pairwise_cons] at h
    rw [Memory.write_cons]
    split
    · rename_i hac
      simp only [List.map_cons, List.pairwise_cons, List.mem_cons]
      refine ⟨?_, h⟩
      rintro x (rfl | hx)
      · exact hac
      · exact lt_trans hac (h.1 x hx)
    · split
      · rename_i hac
        subst hac
        simpa [List.pairwise_cons] using h
      · rename_i h1 h2
        rw [List.map_cons, List.pairwise_cons]
        refine ⟨?_, ih h.2⟩
        intro x hx
        obtain ⟨d, hd, rfl⟩ := List.mem_map.1 hx
        rcases Memory.mem_write hd with rfl | hd
        · omega
        · exact h.1 _ (List.mem_map_of_mem hd)

/-! ### A memory that lists a sequence -/

theorem Memory.ofBytesFrom_keys (bs : List Byte) (i : Nat) :
    (Memory.ofBytesFrom i bs).map Prod.fst = List.range' i bs.length := by
  induction bs generalizing i with
  | nil => rfl
  | cons b bs ih => simp [Memory.ofBytesFrom, ih, List.range'_succ]

/-- The indices a sequence's memory lists: all below its length. -/
@[simp] theorem Memory.ofBytes_keys (bs : List Byte) :
    (Memory.ofBytes bs).map Prod.fst = List.range bs.length := by
  rw [Memory.ofBytes, Memory.ofBytesFrom_keys, List.range_eq_range']

/-- A sequence's memory is in canonical form. -/
theorem Memory.wf_ofBytes (bs : List Byte) : Memory.wf (Memory.ofBytes bs) = true := by
  rw [Memory.wf_iff, Memory.ofBytes_keys]
  exact List.pairwise_lt_range

theorem Memory.read?_ofBytesFrom (bs : List Byte) (i a : Nat) (h : i ≤ a) :
    Memory.read? (Memory.ofBytesFrom i bs) a = bs[a - i]? := by
  induction bs generalizing i with
  | nil => simp [Memory.ofBytesFrom]
  | cons b bs ih =>
    rw [Memory.ofBytesFrom, Memory.read?_cons]
    by_cases e : i = a
    · subst e; simp
    · have : a - i = (a - (i + 1)) + 1 := by omega
      simp only [e, if_false]
      rw [ih (i + 1) (by omega), this, List.getElem?_cons_succ]

/-- Reading a sequence's memory gives the sequence. -/
@[simp] theorem Memory.read?_ofBytes (bs : List Byte) (a : Nat) :
    Memory.read? (Memory.ofBytes bs) a = bs[a]? := by
  simp [Memory.ofBytes, Memory.read?_ofBytesFrom]

/-! ### The commands' reads -/

/-- A buffer's byte depends on the buffer and the reset that drew it. -/
theorem State.byteAt_congr {s t : State} (sp : Buf) (i : Nat) (hm : t.mem sp = s.mem sp)
    (he : t.epoch = s.epoch) : t.byteAt sp i = s.byteAt sp i := by
  simp [State.byteAt, hm, he]

@[simp] theorem State.memRead_length (s : State) (sp : Buf) (i n : Nat) :
    (s.memRead sp i n).length = n := by
  simp [State.memRead]

theorem State.memRead_getElem? (s : State) (sp : Buf) (i n k : Nat) (h : k < n) :
    (s.memRead sp i n)[k]? = some (s.byteAt sp (i + k)) := by
  simp [State.memRead, h]

/-- Two reads give the same sequence if they give the same bytes. -/
theorem State.memRead_congr {s t : State} {sp tp : Buf} {n : Nat}
    (h : ∀ i, i < n → t.byteAt tp i = s.byteAt sp i) : t.memRead tp 0 n = s.memRead sp 0 n := by
  apply List.ext_getElem?
  intro k
  by_cases hk : k < n
  · rw [State.memRead_getElem? _ _ _ _ _ hk, State.memRead_getElem? _ _ _ _ _ hk]
    simp [h k hk]
  · rw [List.getElem?_eq_none (by simp; omega), List.getElem?_eq_none (by simp; omega)]

/-- A buffer that lists exactly a sequence reads as the sequence. -/
theorem State.memRead_ofBytes {s : State} {sp : Buf} {bs : List Byte}
    (h : s.mem sp = Memory.ofBytes bs) : s.memRead sp 0 bs.length = bs := by
  apply List.ext_getElem?
  intro k
  by_cases hk : k < bs.length
  · rw [State.memRead_getElem? _ _ _ _ _ hk]
    simp [State.byteAt, h, hk]
  · rw [List.getElem?_eq_none (by simp; omega), List.getElem?_eq_none (by omega)]

end Sys2Proof.Machine
end

