-- ==== Sys2Proof/Laws/State.lean ====
section
/-! SUPPORT. What each named update leaves in each field of State, so that no proof unfolds an update:
a field per lemma, the fields an update writes first. -/

namespace Sys2Proof.Machine

/-! ### A dropped write (R156) -/

@[simp] theorem setOvr_status (s : State) : (s.setOvr).status = { s.status with ovr := true } := rfl
@[simp] theorem setOvr_errCode (s : State) : (s.setOvr).errCode = s.errCode := rfl
@[simp] theorem setOvr_errInfo0 (s : State) : (s.setOvr).errInfo0 = s.errInfo0 := rfl
@[simp] theorem setOvr_errInfo1 (s : State) : (s.setOvr).errInfo1 = s.errInfo1 := rfl
@[simp] theorem setOvr_tagIn (s : State) : (s.setOvr).tagIn = s.tagIn := rfl
@[simp] theorem setOvr_inLen (s : State) : (s.setOvr).inLen = s.inLen := rfl
@[simp] theorem setOvr_tBytes (s : State) : (s.setOvr).tBytes = s.tBytes := rfl
@[simp] theorem setOvr_tValid (s : State) : (s.setOvr).tValid = s.tValid := rfl
@[simp] theorem setOvr_cLength (s : State) : (s.setOvr).cLength = s.cLength := rfl
@[simp] theorem setOvr_cType (s : State) : (s.setOvr).cType = s.cType := rfl
@[simp] theorem setOvr_cCrc (s : State) : (s.setOvr).cCrc = s.cCrc := rfl
@[simp] theorem setOvr_cValid (s : State) : (s.setOvr).cValid = s.cValid := rfl
@[simp] theorem setOvr_outLen (s : State) : (s.setOvr).outLen = s.outLen := rfl
@[simp] theorem setOvr_cfgIbufSize (s : State) : (s.setOvr).cfgIbufSize = s.cfgIbufSize := rfl
@[simp] theorem setOvr_ibuf (s : State) : (s.setOvr).ibuf = s.ibuf := rfl
@[simp] theorem setOvr_dbuf (s : State) : (s.setOvr).dbuf = s.dbuf := rfl
@[simp] theorem setOvr_obuf (s : State) : (s.setOvr).obuf = s.obuf := rfl
@[simp] theorem setOvr_running (s : State) : (s.setOvr).running = s.running := rfl
@[simp] theorem setOvr_rst (s : State) : (s.setOvr).rst = s.rst := rfl
@[simp] theorem setOvr_inputs (s : State) : (s.setOvr).inputs = s.inputs := rfl
@[simp] theorem setOvr_reply (s : State) : (s.setOvr).reply = s.reply := rfl
@[simp] theorem setOvr_draws (s : State) : (s.setOvr).draws = s.draws := rfl
@[simp] theorem setOvr_epoch (s : State) : (s.setOvr).epoch = s.epoch := rfl

/-! ### Acceptance (R150) -/

@[simp] theorem accept_status (w : Word) (s : State) : (s.accept w).status = ⟨true, false, false, false⟩ := rfl
@[simp] theorem accept_running (w : Word) (s : State) : (s.accept w).running = some w := rfl
@[simp] theorem accept_errCode (w : Word) (s : State) : (s.accept w).errCode = s.errCode := rfl
@[simp] theorem accept_errInfo0 (w : Word) (s : State) : (s.accept w).errInfo0 = s.errInfo0 := rfl
@[simp] theorem accept_errInfo1 (w : Word) (s : State) : (s.accept w).errInfo1 = s.errInfo1 := rfl
@[simp] theorem accept_tagIn (w : Word) (s : State) : (s.accept w).tagIn = s.tagIn := rfl
@[simp] theorem accept_inLen (w : Word) (s : State) : (s.accept w).inLen = s.inLen := rfl
@[simp] theorem accept_tBytes (w : Word) (s : State) : (s.accept w).tBytes = s.tBytes := rfl
@[simp] theorem accept_tValid (w : Word) (s : State) : (s.accept w).tValid = s.tValid := rfl
@[simp] theorem accept_cLength (w : Word) (s : State) : (s.accept w).cLength = s.cLength := rfl
@[simp] theorem accept_cType (w : Word) (s : State) : (s.accept w).cType = s.cType := rfl
@[simp] theorem accept_cCrc (w : Word) (s : State) : (s.accept w).cCrc = s.cCrc := rfl
@[simp] theorem accept_cValid (w : Word) (s : State) : (s.accept w).cValid = s.cValid := rfl
@[simp] theorem accept_outLen (w : Word) (s : State) : (s.accept w).outLen = s.outLen := rfl
@[simp] theorem accept_cfgIbufSize (w : Word) (s : State) : (s.accept w).cfgIbufSize = s.cfgIbufSize := rfl
@[simp] theorem accept_ibuf (w : Word) (s : State) : (s.accept w).ibuf = s.ibuf := rfl
@[simp] theorem accept_dbuf (w : Word) (s : State) : (s.accept w).dbuf = s.dbuf := rfl
@[simp] theorem accept_obuf (w : Word) (s : State) : (s.accept w).obuf = s.obuf := rfl
@[simp] theorem accept_rst (w : Word) (s : State) : (s.accept w).rst = s.rst := rfl
@[simp] theorem accept_inputs (w : Word) (s : State) : (s.accept w).inputs = s.inputs := rfl
@[simp] theorem accept_reply (w : Word) (s : State) : (s.accept w).reply = s.reply := rfl
@[simp] theorem accept_draws (w : Word) (s : State) : (s.accept w).draws = s.draws := rfl
@[simp] theorem accept_epoch (w : Word) (s : State) : (s.accept w).epoch = s.epoch := rfl

/-! ### An unspecified register read under reset -/

@[simp] theorem drawWord_draws (s : State) : (s.drawWord.2).draws = s.draws + 1 := rfl
@[simp] theorem drawWord_status (s : State) : (s.drawWord.2).status = s.status := rfl
@[simp] theorem drawWord_errCode (s : State) : (s.drawWord.2).errCode = s.errCode := rfl
@[simp] theorem drawWord_errInfo0 (s : State) : (s.drawWord.2).errInfo0 = s.errInfo0 := rfl
@[simp] theorem drawWord_errInfo1 (s : State) : (s.drawWord.2).errInfo1 = s.errInfo1 := rfl
@[simp] theorem drawWord_tagIn (s : State) : (s.drawWord.2).tagIn = s.tagIn := rfl
@[simp] theorem drawWord_inLen (s : State) : (s.drawWord.2).inLen = s.inLen := rfl
@[simp] theorem drawWord_tBytes (s : State) : (s.drawWord.2).tBytes = s.tBytes := rfl
@[simp] theorem drawWord_tValid (s : State) : (s.drawWord.2).tValid = s.tValid := rfl
@[simp] theorem drawWord_cLength (s : State) : (s.drawWord.2).cLength = s.cLength := rfl
@[simp] theorem drawWord_cType (s : State) : (s.drawWord.2).cType = s.cType := rfl
@[simp] theorem drawWord_cCrc (s : State) : (s.drawWord.2).cCrc = s.cCrc := rfl
@[simp] theorem drawWord_cValid (s : State) : (s.drawWord.2).cValid = s.cValid := rfl
@[simp] theorem drawWord_outLen (s : State) : (s.drawWord.2).outLen = s.outLen := rfl
@[simp] theorem drawWord_cfgIbufSize (s : State) : (s.drawWord.2).cfgIbufSize = s.cfgIbufSize := rfl
@[simp] theorem drawWord_ibuf (s : State) : (s.drawWord.2).ibuf = s.ibuf := rfl
@[simp] theorem drawWord_dbuf (s : State) : (s.drawWord.2).dbuf = s.dbuf := rfl
@[simp] theorem drawWord_obuf (s : State) : (s.drawWord.2).obuf = s.obuf := rfl
@[simp] theorem drawWord_running (s : State) : (s.drawWord.2).running = s.running := rfl
@[simp] theorem drawWord_rst (s : State) : (s.drawWord.2).rst = s.rst := rfl
@[simp] theorem drawWord_inputs (s : State) : (s.drawWord.2).inputs = s.inputs := rfl
@[simp] theorem drawWord_reply (s : State) : (s.drawWord.2).reply = s.reply := rfl
@[simp] theorem drawWord_epoch (s : State) : (s.drawWord.2).epoch = s.epoch := rfl

/-! ### An unspecified read of one register -/

@[simp] theorem drawReg_draws (r : RegName) (s : State) : ((s.drawReg r).2).draws = s.draws + 1 := rfl
@[simp] theorem drawReg_status (r : RegName) (s : State) : ((s.drawReg r).2).status = s.status := rfl
@[simp] theorem drawReg_errCode (r : RegName) (s : State) : ((s.drawReg r).2).errCode = s.errCode := rfl
@[simp] theorem drawReg_errInfo0 (r : RegName) (s : State) : ((s.drawReg r).2).errInfo0 = s.errInfo0 := rfl
@[simp] theorem drawReg_errInfo1 (r : RegName) (s : State) : ((s.drawReg r).2).errInfo1 = s.errInfo1 := rfl
@[simp] theorem drawReg_tagIn (r : RegName) (s : State) : ((s.drawReg r).2).tagIn = s.tagIn := rfl
@[simp] theorem drawReg_inLen (r : RegName) (s : State) : ((s.drawReg r).2).inLen = s.inLen := rfl
@[simp] theorem drawReg_tBytes (r : RegName) (s : State) : ((s.drawReg r).2).tBytes = s.tBytes := rfl
@[simp] theorem drawReg_tValid (r : RegName) (s : State) : ((s.drawReg r).2).tValid = s.tValid := rfl
@[simp] theorem drawReg_cLength (r : RegName) (s : State) : ((s.drawReg r).2).cLength = s.cLength := rfl
@[simp] theorem drawReg_cType (r : RegName) (s : State) : ((s.drawReg r).2).cType = s.cType := rfl
@[simp] theorem drawReg_cCrc (r : RegName) (s : State) : ((s.drawReg r).2).cCrc = s.cCrc := rfl
@[simp] theorem drawReg_cValid (r : RegName) (s : State) : ((s.drawReg r).2).cValid = s.cValid := rfl
@[simp] theorem drawReg_outLen (r : RegName) (s : State) : ((s.drawReg r).2).outLen = s.outLen := rfl
@[simp] theorem drawReg_cfgIbufSize (r : RegName) (s : State) : ((s.drawReg r).2).cfgIbufSize = s.cfgIbufSize := rfl
@[simp] theorem drawReg_ibuf (r : RegName) (s : State) : ((s.drawReg r).2).ibuf = s.ibuf := rfl
@[simp] theorem drawReg_dbuf (r : RegName) (s : State) : ((s.drawReg r).2).dbuf = s.dbuf := rfl
@[simp] theorem drawReg_obuf (r : RegName) (s : State) : ((s.drawReg r).2).obuf = s.obuf := rfl
@[simp] theorem drawReg_running (r : RegName) (s : State) : ((s.drawReg r).2).running = s.running := rfl
@[simp] theorem drawReg_rst (r : RegName) (s : State) : ((s.drawReg r).2).rst = s.rst := rfl
@[simp] theorem drawReg_inputs (r : RegName) (s : State) : ((s.drawReg r).2).inputs = s.inputs := rfl
@[simp] theorem drawReg_reply (r : RegName) (s : State) : ((s.drawReg r).2).reply = s.reply := rfl
@[simp] theorem drawReg_epoch (r : RegName) (s : State) : ((s.drawReg r).2).epoch = s.epoch := rfl

/-! ### An unspecified buffer read -/

@[simp] theorem drawByte_draws (s : State) : (s.drawByte.2).draws = s.draws + 1 := rfl
@[simp] theorem drawByte_status (s : State) : (s.drawByte.2).status = s.status := rfl
@[simp] theorem drawByte_errCode (s : State) : (s.drawByte.2).errCode = s.errCode := rfl
@[simp] theorem drawByte_errInfo0 (s : State) : (s.drawByte.2).errInfo0 = s.errInfo0 := rfl
@[simp] theorem drawByte_errInfo1 (s : State) : (s.drawByte.2).errInfo1 = s.errInfo1 := rfl
@[simp] theorem drawByte_tagIn (s : State) : (s.drawByte.2).tagIn = s.tagIn := rfl
@[simp] theorem drawByte_inLen (s : State) : (s.drawByte.2).inLen = s.inLen := rfl
@[simp] theorem drawByte_tBytes (s : State) : (s.drawByte.2).tBytes = s.tBytes := rfl
@[simp] theorem drawByte_tValid (s : State) : (s.drawByte.2).tValid = s.tValid := rfl
@[simp] theorem drawByte_cLength (s : State) : (s.drawByte.2).cLength = s.cLength := rfl
@[simp] theorem drawByte_cType (s : State) : (s.drawByte.2).cType = s.cType := rfl
@[simp] theorem drawByte_cCrc (s : State) : (s.drawByte.2).cCrc = s.cCrc := rfl
@[simp] theorem drawByte_cValid (s : State) : (s.drawByte.2).cValid = s.cValid := rfl
@[simp] theorem drawByte_outLen (s : State) : (s.drawByte.2).outLen = s.outLen := rfl
@[simp] theorem drawByte_cfgIbufSize (s : State) : (s.drawByte.2).cfgIbufSize = s.cfgIbufSize := rfl
@[simp] theorem drawByte_ibuf (s : State) : (s.drawByte.2).ibuf = s.ibuf := rfl
@[simp] theorem drawByte_dbuf (s : State) : (s.drawByte.2).dbuf = s.dbuf := rfl
@[simp] theorem drawByte_obuf (s : State) : (s.drawByte.2).obuf = s.obuf := rfl
@[simp] theorem drawByte_running (s : State) : (s.drawByte.2).running = s.running := rfl
@[simp] theorem drawByte_rst (s : State) : (s.drawByte.2).rst = s.rst := rfl
@[simp] theorem drawByte_inputs (s : State) : (s.drawByte.2).inputs = s.inputs := rfl
@[simp] theorem drawByte_reply (s : State) : (s.drawByte.2).reply = s.reply := rfl
@[simp] theorem drawByte_epoch (s : State) : (s.drawByte.2).epoch = s.epoch := rfl

/-! ### Completion with an error (R151, R173) -/

@[simp] theorem raiseError_status (e : ErrorCode) (x y : Word) (s : State) : (raiseError e x y s).status = ⟨false, true, true, s.status.ovr⟩ := rfl
@[simp] theorem raiseError_errCode (e : ErrorCode) (x y : Word) (s : State) : (raiseError e x y s).errCode = e.number := rfl
@[simp] theorem raiseError_errInfo0 (e : ErrorCode) (x y : Word) (s : State) : (raiseError e x y s).errInfo0 = x := rfl
@[simp] theorem raiseError_errInfo1 (e : ErrorCode) (x y : Word) (s : State) : (raiseError e x y s).errInfo1 = y := rfl
@[simp] theorem raiseError_running (e : ErrorCode) (x y : Word) (s : State) : (raiseError e x y s).running = none := rfl
@[simp] theorem raiseError_tagIn (e : ErrorCode) (x y : Word) (s : State) : (raiseError e x y s).tagIn = s.tagIn := rfl
@[simp] theorem raiseError_inLen (e : ErrorCode) (x y : Word) (s : State) : (raiseError e x y s).inLen = s.inLen := rfl
@[simp] theorem raiseError_tBytes (e : ErrorCode) (x y : Word) (s : State) : (raiseError e x y s).tBytes = s.tBytes := rfl
@[simp] theorem raiseError_tValid (e : ErrorCode) (x y : Word) (s : State) : (raiseError e x y s).tValid = s.tValid := rfl
@[simp] theorem raiseError_cLength (e : ErrorCode) (x y : Word) (s : State) : (raiseError e x y s).cLength = s.cLength := rfl
@[simp] theorem raiseError_cType (e : ErrorCode) (x y : Word) (s : State) : (raiseError e x y s).cType = s.cType := rfl
@[simp] theorem raiseError_cCrc (e : ErrorCode) (x y : Word) (s : State) : (raiseError e x y s).cCrc = s.cCrc := rfl
@[simp] theorem raiseError_cValid (e : ErrorCode) (x y : Word) (s : State) : (raiseError e x y s).cValid = s.cValid := rfl
@[simp] theorem raiseError_outLen (e : ErrorCode) (x y : Word) (s : State) : (raiseError e x y s).outLen = s.outLen := rfl
@[simp] theorem raiseError_cfgIbufSize (e : ErrorCode) (x y : Word) (s : State) : (raiseError e x y s).cfgIbufSize = s.cfgIbufSize := rfl
@[simp] theorem raiseError_ibuf (e : ErrorCode) (x y : Word) (s : State) : (raiseError e x y s).ibuf = s.ibuf := rfl
@[simp] theorem raiseError_dbuf (e : ErrorCode) (x y : Word) (s : State) : (raiseError e x y s).dbuf = s.dbuf := rfl
@[simp] theorem raiseError_obuf (e : ErrorCode) (x y : Word) (s : State) : (raiseError e x y s).obuf = s.obuf := rfl
@[simp] theorem raiseError_rst (e : ErrorCode) (x y : Word) (s : State) : (raiseError e x y s).rst = s.rst := rfl
@[simp] theorem raiseError_inputs (e : ErrorCode) (x y : Word) (s : State) : (raiseError e x y s).inputs = s.inputs := rfl
@[simp] theorem raiseError_reply (e : ErrorCode) (x y : Word) (s : State) : (raiseError e x y s).reply = s.reply := rfl
@[simp] theorem raiseError_draws (e : ErrorCode) (x y : Word) (s : State) : (raiseError e x y s).draws = s.draws := rfl
@[simp] theorem raiseError_epoch (e : ErrorCode) (x y : Word) (s : State) : (raiseError e x y s).epoch = s.epoch := rfl

/-! ### A finished command's writes (R151) -/

@[simp] theorem applyWrites_nothing (s : State) : applyWrites .nothing s = s := rfl
@[simp] theorem applyWrites_tag (t : Word) (s : State) :
    applyWrites (.tag t) s = { s with tBytes := t, tValid := true } := rfl
@[simp] theorem applyWrites_chunk (l t c : Word) (d : List Byte) (s : State) :
    applyWrites (.chunk l t c d) s =
      { s with cLength := l, cType := t, cCrc := c, cValid := true, dbuf := Memory.ofBytes d } := rfl
@[simp] theorem applyWrites_frame (n : Word) (bs : List Byte) (s : State) :
    applyWrites (.frame n bs) s = { s with outLen := n, obuf := Memory.ofBytes bs } := rfl

@[simp] theorem applyWrites_status (ws : Writes) (s : State) : (applyWrites ws s).status = s.status := by
  cases ws <;> rfl
@[simp] theorem applyWrites_errCode (ws : Writes) (s : State) : (applyWrites ws s).errCode = s.errCode := by
  cases ws <;> rfl
@[simp] theorem applyWrites_errInfo0 (ws : Writes) (s : State) : (applyWrites ws s).errInfo0 = s.errInfo0 := by
  cases ws <;> rfl
@[simp] theorem applyWrites_errInfo1 (ws : Writes) (s : State) : (applyWrites ws s).errInfo1 = s.errInfo1 := by
  cases ws <;> rfl
@[simp] theorem applyWrites_tagIn (ws : Writes) (s : State) : (applyWrites ws s).tagIn = s.tagIn := by
  cases ws <;> rfl
@[simp] theorem applyWrites_inLen (ws : Writes) (s : State) : (applyWrites ws s).inLen = s.inLen := by
  cases ws <;> rfl
@[simp] theorem applyWrites_cfgIbufSize (ws : Writes) (s : State) : (applyWrites ws s).cfgIbufSize = s.cfgIbufSize := by
  cases ws <;> rfl
@[simp] theorem applyWrites_ibuf (ws : Writes) (s : State) : (applyWrites ws s).ibuf = s.ibuf := by
  cases ws <;> rfl
@[simp] theorem applyWrites_running (ws : Writes) (s : State) : (applyWrites ws s).running = s.running := by
  cases ws <;> rfl
@[simp] theorem applyWrites_rst (ws : Writes) (s : State) : (applyWrites ws s).rst = s.rst := by
  cases ws <;> rfl
@[simp] theorem applyWrites_inputs (ws : Writes) (s : State) : (applyWrites ws s).inputs = s.inputs := by
  cases ws <;> rfl
@[simp] theorem applyWrites_reply (ws : Writes) (s : State) : (applyWrites ws s).reply = s.reply := by
  cases ws <;> rfl
@[simp] theorem applyWrites_draws (ws : Writes) (s : State) : (applyWrites ws s).draws = s.draws := by
  cases ws <;> rfl
@[simp] theorem applyWrites_epoch (ws : Writes) (s : State) : (applyWrites ws s).epoch = s.epoch := by
  cases ws <;> rfl

/-! ### Completion without error (R151) -/

@[simp] theorem finishCommand_status (ws : Writes) (s : State) : (finishCommand ws s).status = ⟨false, true, false, s.status.ovr⟩ := rfl
@[simp] theorem finishCommand_errCode (ws : Writes) (s : State) : (finishCommand ws s).errCode = 0#32 := rfl
@[simp] theorem finishCommand_errInfo0 (ws : Writes) (s : State) : (finishCommand ws s).errInfo0 = 0#32 := rfl
@[simp] theorem finishCommand_errInfo1 (ws : Writes) (s : State) : (finishCommand ws s).errInfo1 = 0#32 := rfl
@[simp] theorem finishCommand_running (ws : Writes) (s : State) : (finishCommand ws s).running = none := rfl
@[simp] theorem finishCommand_tagIn (ws : Writes) (s : State) : (finishCommand ws s).tagIn = s.tagIn := by
  cases ws <;> rfl
@[simp] theorem finishCommand_inLen (ws : Writes) (s : State) : (finishCommand ws s).inLen = s.inLen := by
  cases ws <;> rfl
@[simp] theorem finishCommand_tBytes (ws : Writes) (s : State) :
    (finishCommand ws s).tBytes = (applyWrites ws s).tBytes := rfl
@[simp] theorem finishCommand_tValid (ws : Writes) (s : State) :
    (finishCommand ws s).tValid = (applyWrites ws s).tValid := rfl
@[simp] theorem finishCommand_cLength (ws : Writes) (s : State) :
    (finishCommand ws s).cLength = (applyWrites ws s).cLength := rfl
@[simp] theorem finishCommand_cType (ws : Writes) (s : State) :
    (finishCommand ws s).cType = (applyWrites ws s).cType := rfl
@[simp] theorem finishCommand_cCrc (ws : Writes) (s : State) :
    (finishCommand ws s).cCrc = (applyWrites ws s).cCrc := rfl
@[simp] theorem finishCommand_cValid (ws : Writes) (s : State) :
    (finishCommand ws s).cValid = (applyWrites ws s).cValid := rfl
@[simp] theorem finishCommand_outLen (ws : Writes) (s : State) :
    (finishCommand ws s).outLen = (applyWrites ws s).outLen := rfl
@[simp] theorem finishCommand_cfgIbufSize (ws : Writes) (s : State) : (finishCommand ws s).cfgIbufSize = s.cfgIbufSize := by
  cases ws <;> rfl
@[simp] theorem finishCommand_ibuf (ws : Writes) (s : State) : (finishCommand ws s).ibuf = s.ibuf := by
  cases ws <;> rfl
@[simp] theorem finishCommand_dbuf (ws : Writes) (s : State) :
    (finishCommand ws s).dbuf = (applyWrites ws s).dbuf := rfl
@[simp] theorem finishCommand_obuf (ws : Writes) (s : State) :
    (finishCommand ws s).obuf = (applyWrites ws s).obuf := rfl
@[simp] theorem finishCommand_rst (ws : Writes) (s : State) : (finishCommand ws s).rst = s.rst := by
  cases ws <;> rfl
@[simp] theorem finishCommand_inputs (ws : Writes) (s : State) : (finishCommand ws s).inputs = s.inputs := by
  cases ws <;> rfl
@[simp] theorem finishCommand_reply (ws : Writes) (s : State) : (finishCommand ws s).reply = s.reply := by
  cases ws <;> rfl
@[simp] theorem finishCommand_draws (ws : Writes) (s : State) : (finishCommand ws s).draws = s.draws := by
  cases ws <;> rfl
@[simp] theorem finishCommand_epoch (ws : Writes) (s : State) : (finishCommand ws s).epoch = s.epoch := by
  cases ws <;> rfl

/-! ### Reset (R190, R191) -/

@[simp] theorem assertReset_errCode (s : State) : (assertReset s).errCode = 0#32 := rfl
@[simp] theorem assertReset_errInfo0 (s : State) : (assertReset s).errInfo0 = 0#32 := rfl
@[simp] theorem assertReset_errInfo1 (s : State) : (assertReset s).errInfo1 = 0#32 := rfl
@[simp] theorem assertReset_tagIn (s : State) : (assertReset s).tagIn = 0#32 := rfl
@[simp] theorem assertReset_inLen (s : State) : (assertReset s).inLen = 0#32 := rfl
@[simp] theorem assertReset_tBytes (s : State) : (assertReset s).tBytes = 0#32 := rfl
@[simp] theorem assertReset_cLength (s : State) : (assertReset s).cLength = 0#32 := rfl
@[simp] theorem assertReset_cType (s : State) : (assertReset s).cType = 0#32 := rfl
@[simp] theorem assertReset_cCrc (s : State) : (assertReset s).cCrc = 0#32 := rfl
@[simp] theorem assertReset_outLen (s : State) : (assertReset s).outLen = 0#32 := rfl
@[simp] theorem assertReset_tValid (s : State) : (assertReset s).tValid = false := rfl
@[simp] theorem assertReset_cValid (s : State) : (assertReset s).cValid = false := rfl
@[simp] theorem assertReset_status (s : State) : (assertReset s).status = ⟨false, false, false, false⟩ := rfl
@[simp] theorem assertReset_ibuf (s : State) : (assertReset s).ibuf = [] := rfl
@[simp] theorem assertReset_dbuf (s : State) : (assertReset s).dbuf = [] := rfl
@[simp] theorem assertReset_obuf (s : State) : (assertReset s).obuf = [] := rfl
@[simp] theorem assertReset_running (s : State) : (assertReset s).running = none := rfl
@[simp] theorem assertReset_rst (s : State) : (assertReset s).rst = true := rfl
@[simp] theorem assertReset_epoch (s : State) : (assertReset s).epoch = s.epoch + 1 := rfl
@[simp] theorem assertReset_cfgIbufSize (s : State) : (assertReset s).cfgIbufSize = s.cfgIbufSize := rfl
@[simp] theorem assertReset_inputs (s : State) : (assertReset s).inputs = s.inputs := rfl
@[simp] theorem assertReset_reply (s : State) : (assertReset s).reply = s.reply := rfl
@[simp] theorem assertReset_draws (s : State) : (assertReset s).draws = s.draws := rfl

/-! ### The end of reset (R192) -/

@[simp] theorem deassertReset_rst (s : State) : (deassertReset s).rst = false := rfl
@[simp] theorem deassertReset_status (s : State) : (deassertReset s).status = s.status := rfl
@[simp] theorem deassertReset_errCode (s : State) : (deassertReset s).errCode = s.errCode := rfl
@[simp] theorem deassertReset_errInfo0 (s : State) : (deassertReset s).errInfo0 = s.errInfo0 := rfl
@[simp] theorem deassertReset_errInfo1 (s : State) : (deassertReset s).errInfo1 = s.errInfo1 := rfl
@[simp] theorem deassertReset_tagIn (s : State) : (deassertReset s).tagIn = s.tagIn := rfl
@[simp] theorem deassertReset_inLen (s : State) : (deassertReset s).inLen = s.inLen := rfl
@[simp] theorem deassertReset_tBytes (s : State) : (deassertReset s).tBytes = s.tBytes := rfl
@[simp] theorem deassertReset_tValid (s : State) : (deassertReset s).tValid = s.tValid := rfl
@[simp] theorem deassertReset_cLength (s : State) : (deassertReset s).cLength = s.cLength := rfl
@[simp] theorem deassertReset_cType (s : State) : (deassertReset s).cType = s.cType := rfl
@[simp] theorem deassertReset_cCrc (s : State) : (deassertReset s).cCrc = s.cCrc := rfl
@[simp] theorem deassertReset_cValid (s : State) : (deassertReset s).cValid = s.cValid := rfl
@[simp] theorem deassertReset_outLen (s : State) : (deassertReset s).outLen = s.outLen := rfl
@[simp] theorem deassertReset_cfgIbufSize (s : State) : (deassertReset s).cfgIbufSize = s.cfgIbufSize := rfl
@[simp] theorem deassertReset_ibuf (s : State) : (deassertReset s).ibuf = s.ibuf := rfl
@[simp] theorem deassertReset_dbuf (s : State) : (deassertReset s).dbuf = s.dbuf := rfl
@[simp] theorem deassertReset_obuf (s : State) : (deassertReset s).obuf = s.obuf := rfl
@[simp] theorem deassertReset_running (s : State) : (deassertReset s).running = s.running := rfl
@[simp] theorem deassertReset_inputs (s : State) : (deassertReset s).inputs = s.inputs := rfl
@[simp] theorem deassertReset_reply (s : State) : (deassertReset s).reply = s.reply := rfl
@[simp] theorem deassertReset_draws (s : State) : (deassertReset s).draws = s.draws := rfl
@[simp] theorem deassertReset_epoch (s : State) : (deassertReset s).epoch = s.epoch := rfl

end Sys2Proof.Machine
end

