-- ==== Sys2Proof/Laws/Ops.lean ====
section
/-! SUPPORT. What each shared operation can do, said once: the register map, the four transactions,
acceptance and completion. -/

namespace Sys2Proof.Machine

/-! ### The register map -/

/-- Every register is reached at its own offset. -/
@[simp] theorem regReached_offset (r : RegName) : regReached r.offset 32 = some r := by
  cases r <;> decide

/-- A register is reached only by a 32-bit access at its offset. -/
theorem regReached_some {off width : Nat} {r : RegName} :
    regReached off width = some r ↔ width = 32 ∧ off = r.offset := by
  constructor
  · intro h
    simp only [regReached] at h
    split at h
    · rename_i hw
      have hf := List.find?_some (p := fun r : RegName => r.offset == off) h
      exact ⟨hw.1, by simpa using (beq_iff_eq.1 hf).symm⟩
    · exact absurd h (by simp)
  · rintro ⟨rfl, rfl⟩
    exact regReached_offset r

/-- The offset of a register fits its slot. -/
theorem RegName.offset_lt (r : RegName) : r.offset % 4 = 0 ∧ r.offset < 0x44 := by
  cases r <;> decide

/-- A reserved offset, a misaligned one, one beyond the space and a width other than 32 bits reach no
register. -/
theorem regReached_none {off width : Nat} (h : width ≠ 32 ∨ off % 4 ≠ 0 ∨ 0x44 ≤ off) :
    regReached off width = none := by
  cases e : regReached off width with
  | none => rfl
  | some r =>
    obtain ⟨hw, ho⟩ := regReached_some.1 e
    have := r.offset_lt
    omega

/-! ### Reads -/

/-- A RegRead gives a free word, under reset, or one free in the register's fields, while a command may
be writing it, and advances the counter; or it gives a value and changes nothing. -/
theorem regRead_cases (off width : Nat) (s : State) :
    (s.rst = true ∧ regRead off width s = s.drawWord) ∨
    (∃ r, s.rst = false ∧ s.status.busy = true ∧ regReached off width = some r ∧
      r.undefinedWhileBusy = true ∧ regRead off width s = s.drawReg r) ∨
    (s.rst = false ∧ regReached off width = none ∧ regRead off width s = (0#32, s)) ∨
    (∃ r, s.rst = false ∧ regReached off width = some r ∧
      (s.status.busy = true → r.undefinedWhileBusy = false) ∧
      regRead off width s = (regWord r s, s)) := by
  unfold regRead
  by_cases hr : s.rst = true
  · simp [hr]
  · simp only [Bool.not_eq_true] at hr
    rw [if_neg (by simp [hr])]
    split
    · exact .inr (.inr (.inl ⟨hr, by assumption, rfl⟩))
    · rename_i r e
      split
      · rename_i h
        simp only [Bool.and_eq_true] at h
        exact .inr (.inl ⟨r, hr, h.1, e, h.2, rfl⟩)
      · rename_i h
        refine .inr (.inr (.inr ⟨r, hr, e, ?_, rfl⟩))
        intro hb
        simpa [hb] using h

/-- The read of a register while it is defined. -/
theorem regRead_defined {s : State} (r : RegName) (hr : s.rst = false)
    (hb : s.status.busy = true → r.undefinedWhileBusy = false) :
    regRead r.offset 32 s = (regWord r s, s) := by
  unfold regRead
  rw [if_neg (by simp [hr]), regReached_offset]
  cases h : s.status.busy
  · rfl
  · simp [hb h]

/-- Every register read under reset. -/
theorem regRead_underReset {s : State} (off width : Nat) (h : s.rst = true) :
    regRead off width s = s.drawWord := by
  simp [regRead, h]

/-- The read of a register that a command may be writing. -/
theorem regRead_free {s : State} (r : RegName) (hr : s.rst = false) (hb : s.status.busy = true)
    (hu : r.undefinedWhileBusy = true) : regRead r.offset 32 s = s.drawReg r := by
  simp [regRead, hr, hb, hu]

/-- The value of a register has 0 in its reserved bits, ERR_CODE holding 8 bits. -/
theorem regWord_reservedZero (r : RegName) {s : State} (he : s.errCode &&& 0xFF#32 = s.errCode) :
    regWord r s &&& r.fieldMask = regWord r s := by
  cases r
  case cmd => simp [regWord]
  case status => exact word_and_lowMask 4 (by decide) s.status.toWord_lt
  case errCode => exact he
  case tStatus =>
    exact word_and_lowMask 6 (by decide) (tagStatusWord_bits s.tValid s.tBytes).2.2.2.2.2.2
  case cStatus =>
    exact word_and_lowMask 6 (by decide) (tagStatusWord_bits s.cValid s.cType).2.2.2.2.2.2
  all_goals exact word_and_lowMask 32 (by decide) (BitVec.isLt _)

/-- Reserved bits read 0, busy or not (R42). -/
theorem regRead_reservedZero (r : RegName) {s : State} (hr : s.rst = false)
    (he : s.errCode &&& 0xFF#32 = s.errCode) :
    (regRead r.offset 32 s).1 &&& r.fieldMask = (regRead r.offset 32 s).1 := by
  by_cases h : s.status.busy = true ∧ r.undefinedWhileBusy = true
  · rw [regRead_free r hr h.1 h.2]
    simp [State.drawReg, BitVec.and_assoc]
  · rw [regRead_defined r hr (by simpa using h)]
    exact regWord_reservedZero r he

/-- A read that reaches no register returns 0. -/
theorem regRead_unreached {s : State} (off width : Nat) (hr : s.rst = false)
    (h : regReached off width = none) : regRead off width s = (0#32, s) := by
  unfold regRead
  rw [if_neg (by simp [hr]), h]

/-- A RegRead changes nothing of the block: only what the host was told and the counter of free values. -/
theorem hostRegRead_frame (off width : Nat) (view : View) (s : State) :
    ∃ v d, hostRegRead off width view s = { s with reply := .word v view, draws := d } := by
  rcases regRead_cases off width s with ⟨-, h⟩ | ⟨r, -, -, -, -, h⟩ | ⟨-, -, h⟩ | ⟨r, -, -, -, h⟩
  · exact ⟨Config.freeWord s.draws, s.draws + 1, by rw [hostRegRead, h]; rfl⟩
  · exact ⟨Config.freeWord s.draws &&& r.fieldMask, s.draws + 1, by rw [hostRegRead, h]; rfl⟩
  · exact ⟨0#32, s.draws, by rw [hostRegRead, h]⟩
  · exact ⟨regWord r s, s.draws, by rw [hostRegRead, h]⟩

/-- The read of a register while it is defined gives its value and changes nothing of the block. -/
theorem hostRegRead_defined {s : State} (r : RegName) (view : View) (hr : s.rst = false)
    (hb : s.status.busy = true → r.undefinedWhileBusy = false) :
    hostRegRead r.offset 32 view s = { s with reply := .word (regWord r s) view } := by
  rw [hostRegRead, regRead_defined r hr hb]

/-- A BufRead gives a free byte and advances the counter, or gives a value and changes nothing. -/
theorem bufRead_cases (sp : Buf) (i : Nat) (s : State) :
    bufRead sp i s = s.drawByte ∨ (s.rst = false ∧ s.bufSize sp ≤ i ∧ bufRead sp i s = (0#8, s)) ∨
      (s.rst = false ∧ i < s.bufSize sp ∧ bufRead sp i s = (s.byteAt sp i, s)) := by
  unfold bufRead
  by_cases hr : s.rst = true
  · simp [hr]
  · simp only [Bool.not_eq_true] at hr
    rw [if_neg (by simp [hr])]
    split
    · exact .inr (.inl ⟨hr, by assumption, rfl⟩)
    · rename_i hi
      have hi : i < s.bufSize sp := by omega
      cases sp
      · exact .inr (.inr ⟨hr, hi, rfl⟩)
      · simp only
        split
        · exact .inl rfl
        · split
          · exact .inr (.inr ⟨hr, hi, rfl⟩)
          · exact .inl rfl
      · simp only
        split
        · exact .inl rfl
        · split
          · exact .inr (.inr ⟨hr, hi, rfl⟩)
          · exact .inl rfl

/-- A BufRead changes nothing of the block. -/
theorem hostBufRead_frame (sp : Buf) (i : Nat) (s : State) :
    ∃ b d, hostBufRead sp i s = { s with reply := .byte b, draws := d } := by
  rcases bufRead_cases sp i s with h | ⟨-, -, h⟩ | ⟨-, -, h⟩
  · exact ⟨Config.freeByte s.draws, s.draws + 1, by rw [hostBufRead, h]; rfl⟩
  · exact ⟨0#8, s.draws, by rw [hostBufRead, h]⟩
  · exact ⟨s.byteAt sp i, s.draws, by rw [hostBufRead, h]⟩

/-! ### Writes -/

/-- What a RegWrite can do: nothing, set OVR, start a command, or store an operand. -/
theorem regWrite_cases (off width : Nat) (v : Word) (s : State) :
    regWrite off width v s = s ∨
    (s.rst = false ∧ s.status.busy = true ∧ regWrite off width v s = s.setOvr) ∨
    (s.rst = false ∧ s.status.busy = false ∧ width = 32 ∧
      ((off = RegName.cmd.offset ∧ regWrite off width v s = s.accept v) ∨
       (off = RegName.tagIn.offset ∧ regWrite off width v s = { s with tagIn := v }) ∨
       (off = RegName.inLen.offset ∧ regWrite off width v s = { s with inLen := s.clampLen v }))) := by
  cases hr : s.rst
  · cases h : regReached off width with
    | none => exact .inl (by simp [regWrite, hr, h])
    | some r =>
      obtain ⟨hw, ho⟩ := regReached_some.1 h
      cases hb : s.status.busy
      · cases r <;> simp [regWrite, hr, hb, hw, ho]
      · cases r <;> simp [regWrite, hr, h, hb]
  · exact .inl (by simp [regWrite, hr])

/-- A RegWrite that reaches none of CMD, TAG_IN and IN_LEN changes nothing. -/
theorem regWrite_dropped (off width : Nat) (v : Word) (s : State)
    (h : s.rst = true ∨ width ≠ 32 ∨
      (off ≠ RegName.cmd.offset ∧ off ≠ RegName.tagIn.offset ∧ off ≠ RegName.inLen.offset)) :
    regWrite off width v s = s := by
  cases hr : s.rst
  · cases e : regReached off width with
    | none => simp [regWrite, hr, e]
    | some r =>
      obtain ⟨hw, ho⟩ := regReached_some.1 e
      have h' : off ≠ RegName.cmd.offset ∧ off ≠ RegName.tagIn.offset ∧
          off ≠ RegName.inLen.offset := by
        rcases h with h | h | h
        · simp [hr] at h
        · exact absurd hw h
        · exact h
      subst ho
      cases r <;> simp [regWrite, hr, e] at h' ⊢
  · simp [regWrite, hr]

/-- The writes of the three writable registers while the block is idle. -/
theorem regWrite_cmd_idle {s : State} (v : Word) (hr : s.rst = false) (hb : s.status.busy = false) :
    regWrite RegName.cmd.offset 32 v s = s.accept v := by
  simp [regWrite, hr, hb]

theorem regWrite_tagIn_idle {s : State} (v : Word) (hr : s.rst = false)
    (hb : s.status.busy = false) : regWrite RegName.tagIn.offset 32 v s = { s with tagIn := v } := by
  simp [regWrite, hr, hb]

theorem regWrite_inLen_idle {s : State} (v : Word) (hr : s.rst = false)
    (hb : s.status.busy = false) :
    regWrite RegName.inLen.offset 32 v s = { s with inLen := s.clampLen v } := by
  simp [regWrite, hr, hb]

/-- The clamp of IN_LEN is the minimum of the counts (spec/10_state.md R33). -/
theorem clampLen_toNat (s : State) (v : Word) :
    (s.clampLen v).toNat = min v.toNat s.ibufSize := by
  unfold State.clampLen State.ibufSize
  split <;> rename_i h <;> simp only [BitVec.le_def] at h <;> omega

/-- What a BufWrite can do: nothing, set OVR, or store a byte of IBUF. -/
theorem bufWrite_cases (sp : Buf) (i : Nat) (b : Byte) (s : State) :
    bufWrite sp i b s = s ∨
    (s.rst = false ∧ s.status.busy = true ∧ bufWrite sp i b s = s.setOvr) ∨
    (s.rst = false ∧ s.status.busy = false ∧ sp = .ibuf ∧ i < s.ibufSize ∧
      bufWrite sp i b s = { s with ibuf := Memory.write s.ibuf i b }) := by
  cases sp
  · cases hr : s.rst <;> cases hb : s.status.busy <;>
      by_cases hi : s.ibufSize ≤ i <;> simp [bufWrite, hr, hb, hi]
    omega
  · exact .inl (by simp [bufWrite])
  · exact .inl (by simp [bufWrite])

/-! ### Completion -/

/-- A command that has completed leaves its result in STATUS and the three error registers
(spec/43_control.md R151). -/
theorem complete_finish (ws : Writes) (s : State) : complete (.finish ws) s = finishCommand ws s := rfl

theorem complete_raise (e : ErrorCode) (x y : Word) (s : State) :
    complete (.raise e x y) s = raiseError e x y s := rfl

/-- No error code is 0. -/
@[simp] theorem ErrorCode.number_ne_zero (e : ErrorCode) : e.number ≠ 0#32 := by
  cases e <;> decide

/-- ERR_CODE is 0 exactly after a command that finished. -/
theorem complete_errCode_zero (r : CmdResult) (s : State) :
    (complete r s).errCode = 0#32 ↔ ∃ ws, r = .finish ws := by
  cases r <;> simp [complete]

/-- Completion ends the run of the command, whatever its result. -/
@[simp] theorem complete_running (r : CmdResult) (s : State) : (complete r s).running = none := by
  cases r <;> simp [complete]

/-- What no completion writes. -/
theorem complete_frame (r : CmdResult) (s : State) :
    (complete r s).tagIn = s.tagIn ∧ (complete r s).inLen = s.inLen ∧
    (complete r s).cfgIbufSize = s.cfgIbufSize ∧ (complete r s).ibuf = s.ibuf ∧
    (complete r s).rst = s.rst ∧ (complete r s).inputs = s.inputs ∧
    (complete r s).reply = s.reply ∧ (complete r s).draws = s.draws ∧
    (complete r s).epoch = s.epoch := by
  cases r <;> simp [complete]

/-- STATUS after completion (spec/43_control.md R151). -/
theorem complete_status (r : CmdResult) (s : State) :
    (complete r s).status = ⟨false, true, decide ((complete r s).errCode ≠ 0#32), s.status.ovr⟩ := by
  cases r <;> simp [complete]

end Sys2Proof.Machine
end

