-- ==== Sys2Proof/Laws/Exec.lean ====
section
/-! SUPPORT. What `exec` and `step` can do, said once: a command completes with its result, a row of the
port acts as its transaction, and every step answers a next state. -/

namespace Sys2Proof.Machine

open Sys2Proof

/-- How a command ends in a state: the `Execute(w)` of spec/43_control.md R151; none for the rows that
are transactions. -/
def commandResult (i : Instr) (s : State) : Option CmdResult :=
  match encode i with
  | .access _ => none
  | .command _ =>
    match i with
    | .tagFromBytes => some (tagFromBytesResult s)
    | .tagFromText => some (tagFromTextResult s)
    | .chunkNew => some (chunkNewResult s)
    | .chunkSerialize => some (chunkSerializeResult s)
    | .chunkParse => some (chunkParseResult s)
    | .chunkTextCheck => some (chunkTextCheckResult s)
    | .illegal w => some (.raise .illegalCommand w 0#32)
    | _ => some (.finish .nothing)

/-- An instruction that is a transaction acts as the transaction. -/
theorem exec_access {i : Instr} {a : Access} (h : encode i = .access a) (s : State) :
    exec i s = .next (performAccess a s) := by
  cases i
  case frameRead k => cases k <;> (cases h; rfl)
  all_goals first | (cases h; rfl) | exact absurd h (by simp [encode])

/-- An instruction that is a command completes with its result. -/
theorem exec_command {i : Instr} {w : Word} (h : encode i = .command w) (s : State) :
    ∃ r, commandResult i s = some r ∧ exec i s = .next (complete r s) := by
  cases i
  case frameRead k => cases k <;> exact absurd h (by simp [encode])
  all_goals first | exact ⟨_, rfl, rfl⟩ | exact absurd h (by simp [encode])

/-- What an instruction does: it completes a command, or performs a transaction. -/
theorem exec_cases (i : Instr) (s : State) :
    (∃ w r, encode i = .command w ∧ commandResult i s = some r ∧ exec i s = .next (complete r s)) ∨
    (∃ a, encode i = .access a ∧ exec i s = .next (performAccess a s)) := by
  cases h : encode i with
  | command w =>
    obtain ⟨r, hr, he⟩ := exec_command h s
    exact .inl ⟨w, r, rfl, hr, he⟩
  | access a => exact .inr ⟨a, rfl, exec_access h s⟩

/-- ERR_CODE holds a code of 8 bits (spec/10_state.md R30). -/
theorem errCode_reservedZero {s : State} (h : s.Inv) : s.errCode &&& 0xFF#32 = s.errCode := by
  have low : ∀ c ∈ producedErrCodes, c &&& 0xFF#32 = c := by simp [producedErrCodes]
  exact low _ h.2.1.2.2.2.2.2

/-- What a transaction can do to the block. -/
theorem performAccess_cases (a : Access) (s : State) :
    (∃ rep d, performAccess a s = { s with reply := rep, draws := d }) ∨
    (s.rst = false ∧ s.status.busy = true ∧ performAccess a s = s.setOvr) ∨
    (s.rst = false ∧ s.status.busy = false ∧
      ((∃ w, performAccess a s = s.accept w) ∨
       (∃ v, performAccess a s = { s with tagIn := v }) ∨
       (∃ v, performAccess a s = { s with inLen := s.clampLen v }) ∨
       (∃ i b, i < s.ibufSize ∧ performAccess a s = { s with ibuf := Memory.write s.ibuf i b }))) := by
  cases a with
  | regRead off width view =>
    obtain ⟨v, d, h⟩ := hostRegRead_frame off width view s
    exact .inl ⟨_, _, h⟩
  | bufRead sp i =>
    obtain ⟨v, d, h⟩ := hostBufRead_frame sp i s
    exact .inl ⟨_, _, h⟩
  | regWrite off width v =>
    rcases regWrite_cases off width v s with h | h | ⟨hr, hb, -, ⟨-, h⟩ | ⟨-, h⟩ | ⟨-, h⟩⟩
    · exact .inl ⟨s.reply, s.draws, h⟩
    · exact .inr (.inl h)
    · exact .inr (.inr ⟨hr, hb, .inl ⟨v, h⟩⟩)
    · exact .inr (.inr ⟨hr, hb, .inr (.inl ⟨v, h⟩)⟩)
    · exact .inr (.inr ⟨hr, hb, .inr (.inr (.inl ⟨v, h⟩))⟩)
  | bufWrite sp i b =>
    rcases bufWrite_cases sp i b s with h | h | ⟨hr, hb, -, hi, h⟩
    · exact .inl ⟨s.reply, s.draws, h⟩
    · exact .inr (.inl h)
    · exact .inr (.inr ⟨hr, hb, .inr (.inr (.inr ⟨i, b, hi, h⟩))⟩)

/-- What a step can do: complete the running command, perform the transaction that has arrived, or settle
without either. -/
theorem step_cases (s : State) :
    (∃ w t r, nextTurn s = .command w t ∧ step s = .next (complete r t) ∧
      commandResult (decodeCommand w) t = some r) ∨
    (∃ a t, nextTurn s = .access a t ∧ step s = .next (performAccess a t)) ∨
    (∃ t, nextTurn s = .settled t ∧ step s = .next t) := by
  unfold step
  cases h : nextTurn s with
  | command w t =>
    obtain ⟨r, hr, he⟩ := exec_command (encode_decodeCommand w) t
    exact .inl ⟨w, t, r, rfl, he, hr⟩
  | access a t =>
    refine .inr (.inl ⟨a, t, rfl, ?_⟩)
    dsimp only
    cases hd : decodeAccess a with
    | error _ => rfl
    | ok i => exact exec_access (encode_of_decodeAccess hd) t
  | settled t => exact .inr (.inr ⟨t, rfl, rfl⟩)

/-- A run that begins with a step to a next state goes on from it. -/
theorem run_succ (M : Host.Core) {s t : M.State} (h : M.step s = .next t) (k : Nat) :
    M.run (k + 1) s = M.run k t := by
  rw [Host.Core.run, h]

/-- The same for the machine: the steps of `core` are those of `step`. -/
theorem core_run_succ {s t : State} (h : step s = .next t) (k : Nat) :
    Sys2Proof.core.run (k + 1) s = Sys2Proof.core.run k t :=
  run_succ Sys2Proof.core h k

end Sys2Proof.Machine
end

