-- ==== Sys2Proof/Laws/Chunk.lean ====
section
/-! SUPPORT. The chunk unit: the frame read from IBUF, the results of its commands, and the UTF-8 scan. -/

namespace Sys2Proof.Machine

open Sys2Proof

/-! ### The frame read from IBUF -/

theorem memRead_getD {s : State} {sp : Buf} {n k : Nat} (h : k < n) :
    (s.memRead sp 0 n).getD k 0#8 = s.byteAt sp k := by
  rw [List.getD_eq_getElem?_getD, State.memRead_getElem? _ _ _ _ _ h]; simp

/-- Four bytes of the raw buffer as a word. -/
theorem be32At_memRead {s : State} {n i : Nat} (h : i + 4 ≤ n) :
    be32At (s.memRead .ibuf 0 n) i = s.ibufWord i := by
  unfold be32At State.ibufWord
  rw [memRead_getD (by omega), memRead_getD (by omega), memRead_getD (by omega),
    memRead_getD (by omega)]

/-- A slice of the raw buffer is a read of IBUF. -/
theorem slice_memRead {s : State} {sp : Buf} {n i k : Nat} (h : i + k ≤ n) :
    slice (s.memRead sp 0 n) i k = s.memRead sp i k := by
  apply List.ext_getElem?
  intro j
  unfold slice
  by_cases hj : j < k
  · rw [List.getElem?_take_of_lt hj, List.getElem?_drop,
      State.memRead_getElem? _ _ _ _ _ (by omega), State.memRead_getElem? _ _ _ _ _ hj]
    simp
  · rw [List.getElem?_eq_none (by simp; omega), List.getElem?_eq_none (by simp; omega)]

theorem bytesBE32_ibufWord (s : State) (i : Nat) : bytesBE32 (s.ibufWord i) = s.memRead .ibuf i 4 := by
  simp [State.ibufWord, State.memRead, List.range_succ]

/-- Byte `k` of a word of IBUF. -/
theorem wordByte_ibufWord (s : State) {i k : Nat} (h : k < 4) :
    wordByte (s.ibufWord i) k = s.byteAt .ibuf (i + k) := by
  obtain rfl | rfl | rfl | rfl : k = 0 ∨ k = 1 ∨ k = 2 ∨ k = 3 := by omega
  all_goals simp [State.ibufWord]

/-- The tag of a frame in IBUF is constructed if its four bytes are letters. -/
theorem tagCheck_ibufWord (s : State) (i : Nat) :
    tagCheck (s.ibufWord i) = none ↔ ∀ k, k < 4 → isAlpha (s.byteAt .ibuf (i + k)) = true := by
  rw [tagCheck_none, allAlpha_iff]
  constructor
  · intro h k hk; rw [← wordByte_ibufWord s hk]; exact h k hk
  · intro h k hk; rw [wordByte_ibufWord s hk]; exact h k hk

/-! ### The stages of CHUNK_PARSE -/

/-- Everything CHUNK_PARSE can do: which stage fails and what it records, or the chunk it commits
(spec/42_chunk.md R122). -/
theorem chunkParseResult_cases (s : State) :
    (s.inLen.toNat < 4 ∧ chunkParseResult s = .raise .readError 0#32 4#32) ∨
    (4 ≤ s.inLen.toNat ∧ s.inLen.toNat < 8 ∧ chunkParseResult s = .raise .readError 4#32 4#32) ∨
    (∃ b, 8 ≤ s.inLen.toNat ∧ tagCheck (s.ibufWord 4) = some b ∧
      chunkParseResult s = .raise .invalidChunkType 1#32 (zextByte b)) ∨
    (8 ≤ s.inLen.toNat ∧ tagCheck (s.ibufWord 4) = none ∧
      s.inLen.toNat < 8 + (s.ibufWord 0).toNat ∧
      chunkParseResult s = .raise .readError 8#32 (s.ibufWord 0)) ∨
    (tagCheck (s.ibufWord 4) = none ∧ 8 + (s.ibufWord 0).toNat ≤ s.inLen.toNat ∧
      s.inLen.toNat < 12 + (s.ibufWord 0).toNat ∧
      chunkParseResult s = .raise .readError (countWord (8 + (s.ibufWord 0).toNat)) 4#32) ∨
    (tagCheck (s.ibufWord 4) = none ∧ 12 + (s.ibufWord 0).toNat ≤ s.inLen.toNat ∧
      s.ibufWord (8 + (s.ibufWord 0).toNat) ≠
        chunkCrc (s.ibufWord 4) (s.memRead .ibuf 8 (s.ibufWord 0).toNat) ∧
      chunkParseResult s = .raise .invalidCrc (s.ibufWord (8 + (s.ibufWord 0).toNat))
        (chunkCrc (s.ibufWord 4) (s.memRead .ibuf 8 (s.ibufWord 0).toNat))) ∨
    (tagCheck (s.ibufWord 4) = none ∧ 12 + (s.ibufWord 0).toNat ≤ s.inLen.toNat ∧
      s.ibufWord (8 + (s.ibufWord 0).toNat) =
        chunkCrc (s.ibufWord 4) (s.memRead .ibuf 8 (s.ibufWord 0).toNat) ∧
      chunkParseResult s = .finish (.chunk (s.ibufWord 0) (s.ibufWord 4)
        (s.ibufWord (8 + (s.ibufWord 0).toNat)) (s.memRead .ibuf 8 (s.ibufWord 0).toNat))) := by
  generalize hn : s.inLen.toNat = n
  have hp : chunkParseResult s = parseFrame (s.memRead .ibuf 0 n) := by rw [chunkParseResult, hn]
  rw [hp]
  unfold parseFrame
  simp only [State.memRead_length]
  by_cases h4 : n < 4
  · exact .inl ⟨h4, by rw [if_pos h4]⟩
  rw [if_neg h4]
  by_cases h8 : n < 8
  · exact .inr (.inl ⟨by omega, h8, by rw [if_pos h8]⟩)
  rw [if_neg h8, be32At_memRead (i := 0) (by omega), be32At_memRead (i := 4) (by omega)]
  refine .inr (.inr ?_)
  cases ht : tagCheck (s.ibufWord 4) with
  | some b => exact .inl ⟨b, by omega, rfl, rfl⟩
  | none =>
    refine .inr ?_
    dsimp only
    have hcw : countWord (s.ibufWord 0).toNat = s.ibufWord 0 := by simp [countWord]
    by_cases hd : n - 8 < (s.ibufWord 0).toNat
    · exact .inl ⟨by omega, rfl, by omega, by rw [if_pos hd, hcw]⟩
    rw [if_neg hd]
    by_cases hc : n - 8 - (s.ibufWord 0).toNat < 4
    · exact .inr (.inl ⟨rfl, by omega, by omega, by rw [if_pos hc]⟩)
    rw [if_neg hc, be32At_memRead (by omega), slice_memRead (by omega)]
    refine .inr (.inr ?_)
    by_cases he : chunkCrc (s.ibufWord 4) (s.memRead .ibuf 8 (s.ibufWord 0).toNat) =
        s.ibufWord (8 + (s.ibufWord 0).toNat)
    · exact .inr ⟨rfl, by omega, he.symm, by rw [if_neg (by simpa using he), hcw]⟩
    · exact .inl ⟨rfl, by omega, fun h => he h.symm, by rw [if_pos he]⟩

/-- What a command can write: nothing, a tag of letters, a chunk that meets its invariant, or the frame of
the chunk (spec/30_encoding.md R74). -/
theorem commandResult_finish {i : Instr} {s : State} {ws : Writes}
    (h : commandResult i s = some (.finish ws)) :
    (ws = .nothing ∧ (i = .nop ∨ i = .chunkTextCheck)) ∨
    (∃ t, ws = .tag t ∧ (i = .tagFromBytes ∨ i = .tagFromText) ∧ allAlpha t = true) ∨
    (i = .chunkNew ∧ s.tValid = true ∧
      ws = .chunk s.inLen s.tBytes (chunkCrc s.tBytes (s.memRead .ibuf 0 s.inLen.toNat))
        (s.memRead .ibuf 0 s.inLen.toNat)) ∨
    (i = .chunkParse ∧ allAlpha (s.ibufWord 4) = true ∧
      12 + (s.ibufWord 0).toNat ≤ s.inLen.toNat ∧
      ws = .chunk (s.ibufWord 0) (s.ibufWord 4)
        (chunkCrc (s.ibufWord 4) (s.memRead .ibuf 8 (s.ibufWord 0).toNat))
        (s.memRead .ibuf 8 (s.ibufWord 0).toNat)) ∨
    (i = .chunkSerialize ∧ s.cValid = true ∧
      ws = .frame (12#32 + s.cLength)
        (frameBytes s.cLength s.cType s.cCrc (s.memRead .dbuf 0 s.cLength.toNat))) := by
  have hc : ∀ t, constructTag t = .finish ws → ws = .tag t ∧ allAlpha t = true := by
    intro t h
    unfold constructTag at h
    cases e : tagCheck t with
    | some b => rw [e] at h; exact absurd h (by simp)
    | none =>
      rw [e] at h
      exact ⟨by simpa using h.symm, (tagCheck_none t).1 e⟩
  cases i
  case nop => exact .inl ⟨by simpa [commandResult, encode] using h.symm, .inl rfl⟩
  case tagFromBytes =>
    obtain ⟨h1, h2⟩ := hc s.tagIn (by simpa [commandResult, encode, tagFromBytesResult] using h)
    exact .inr (.inl ⟨_, h1, .inl rfl, h2⟩)
  case tagFromText =>
    have h : tagFromTextResult s = .finish ws := by simpa [commandResult, encode] using h
    unfold tagFromTextResult at h
    split at h
    · exact absurd h (by simp)
    · obtain ⟨h1, h2⟩ := hc _ h
      exact .inr (.inl ⟨_, h1, .inr rfl, h2⟩)
  case chunkNew =>
    have h : chunkNewResult s = .finish ws := by simpa [commandResult, encode] using h
    unfold chunkNewResult at h
    split at h
    · rename_i hv
      refine .inr (.inr (.inl ⟨rfl, hv, ?_⟩))
      simpa using h.symm
    · exact absurd h (by simp)
  case chunkSerialize =>
    have h : chunkSerializeResult s = .finish ws := by simpa [commandResult, encode] using h
    unfold chunkSerializeResult at h
    split at h
    · rename_i hv
      refine .inr (.inr (.inr (.inr ⟨rfl, hv, ?_⟩)))
      simpa using h.symm
    · exact absurd h (by simp)
  case chunkParse =>
    have h : chunkParseResult s = .finish ws := by simpa [commandResult, encode] using h
    rcases chunkParseResult_cases s with ⟨_, e⟩ | ⟨_, _, e⟩ | ⟨_, _, _, e⟩ | ⟨_, _, _, e⟩ |
      ⟨_, _, _, e⟩ | ⟨_, _, _, e⟩ | ⟨ht, hl, hcrc, e⟩
    all_goals rw [e] at h
    iterate 6 exact absurd h (by simp)
    rw [hcrc] at h
    exact .inr (.inr (.inr (.inl ⟨rfl, (tagCheck_none _).1 ht, hl, by simpa using h.symm⟩)))
  case chunkTextCheck =>
    have h : chunkTextCheckResult s = .finish ws := by simpa [commandResult, encode] using h
    unfold chunkTextCheckResult at h
    split at h
    · dsimp only at h
      split at h
      · exact absurd h (by simp)
      · exact .inl ⟨by simpa using h.symm, .inr rfl⟩
    · exact absurd h (by simp)
  case illegal w => exact absurd h (by simp [commandResult, encode])
  case frameRead k => cases k <;> exact absurd h (by simp [commandResult, encode])
  all_goals exact absurd h (by simp [commandResult, encode])

end Sys2Proof.Machine
end

