-- ==== Sys2Proof/Laws/Commands.lean ====
section
/-! SUPPORT. What a command's result does to the state, what no transaction writes, and the byte of IBUF a
host write leaves. -/

namespace Sys2Proof.Machine

open Sys2Proof

/-- A committed chunk: its registers, DBUF listing exactly the payload, and the payload reading back. -/
theorem complete_chunk (len type crc : Word) (data : List Byte) (s : State)
    (h : len.toNat = data.length) :
    ∃ t, complete (.finish (.chunk len type crc data)) s = t ∧ t.cLength = len ∧ t.cType = type ∧
      t.cCrc = crc ∧ t.cValid = true ∧ t.dbuf = Memory.ofBytes data ∧
      t.dbuf.map Prod.fst = List.range t.cLength.toNat ∧ t.memRead .dbuf 0 t.cLength.toNat = data := by
  refine ⟨_, rfl, rfl, rfl, rfl, rfl, rfl, ?_, ?_⟩
  · show (Memory.ofBytes data).map Prod.fst = List.range len.toNat
    rw [h, Memory.ofBytes_keys]
  · show State.memRead _ .dbuf 0 len.toNat = data
    rw [h]
    exact State.memRead_ofBytes rfl

/-- No command raises MAX_LENGTH or INVALID_CHUNK_DATA (spec/42_chunk.md R123). -/
theorem commandResult_raise {i : Instr} {s : State} {e : ErrorCode} {x y : Word}
    (h : commandResult i s = some (.raise e x y)) : e ≠ .maxLength ∧ e ≠ .invalidChunkData := by
  have hc : ∀ t, constructTag t = .raise e x y → e = .badByte := by
    intro t h; unfold constructTag at h; split at h <;> simp_all
  cases i
  case frameRead k => cases k <;> simp [commandResult, encode] at h
  case tagFromBytes =>
    have := hc _ (by simpa [commandResult, encode, tagFromBytesResult] using h)
    simp [this]
  case tagFromText =>
    simp only [commandResult, encode, Option.some.injEq, tagFromTextResult] at h
    split at h
    · cases h; simp
    · simp [hc _ h]
  case chunkNew =>
    simp only [commandResult, encode, Option.some.injEq, chunkNewResult] at h
    split at h <;> cases h
    simp
  case chunkSerialize =>
    simp only [commandResult, encode, Option.some.injEq, chunkSerializeResult] at h
    split at h <;> cases h
    simp
  case chunkParse =>
    simp only [commandResult, encode, Option.some.injEq] at h
    rcases chunkParseResult_cases s with ⟨_, q⟩ | ⟨_, _, q⟩ | ⟨_, _, _, q⟩ | ⟨_, _, _, q⟩ |
      ⟨_, _, _, q⟩ | ⟨_, _, _, q⟩ | ⟨_, _, _, q⟩
    all_goals rw [q] at h; cases h
    all_goals simp
  case chunkTextCheck =>
    simp only [commandResult, encode, Option.some.injEq, chunkTextCheckResult] at h
    split at h
    · split at h <;> cases h
      simp
    · cases h; simp
  case illegal w =>
    simp only [commandResult, encode, Option.some.injEq] at h
    cases h; simp
  all_goals simp [commandResult, encode] at h

/-- An error that is raised has a produced code. -/
theorem number_mem_produced {e : ErrorCode} (h : e ≠ .maxLength ∧ e ≠ .invalidChunkData) :
    e.number ∈ producedErrCodes := by
  cases e <;> simp_all [producedErrCodes, ErrorCode.number]

/-- What no transaction writes: the tag, the chunk, the frame, the errors and the parameter. -/
theorem performAccess_keeps (a : Access) (s : State) :
    (performAccess a s).tBytes = s.tBytes ∧ (performAccess a s).tValid = s.tValid ∧
    (performAccess a s).cLength = s.cLength ∧ (performAccess a s).cType = s.cType ∧
    (performAccess a s).cCrc = s.cCrc ∧ (performAccess a s).cValid = s.cValid ∧
    (performAccess a s).outLen = s.outLen ∧ (performAccess a s).dbuf = s.dbuf ∧
    (performAccess a s).obuf = s.obuf ∧ (performAccess a s).errCode = s.errCode ∧
    (performAccess a s).errInfo0 = s.errInfo0 ∧ (performAccess a s).errInfo1 = s.errInfo1 ∧
    (performAccess a s).cfgIbufSize = s.cfgIbufSize ∧ (performAccess a s).rst = s.rst ∧
    (performAccess a s).inputs = s.inputs ∧ (performAccess a s).epoch = s.epoch := by
  rcases performAccess_cases a s with ⟨_, _, h⟩ | ⟨-, -, h⟩ |
    ⟨-, -, ⟨_, h⟩ | ⟨_, h⟩ | ⟨_, h⟩ | ⟨_, _, -, h⟩⟩ <;> simp [h]

/-- The bytes of IBUF after one is written. -/
theorem byteAt_write (s : State) (i : Nat) (b : Byte) (j : Nat) :
    State.byteAt { s with ibuf := Memory.write s.ibuf i b } .ibuf j =
      if j = i then b else s.byteAt .ibuf j := by
  simp only [State.byteAt, State.mem]
  by_cases h : j = i
  · subst h; simp
  · rw [Memory.read?_write_other _ _ h, if_neg h]

/-- Two states that agree on a command's operands give the same result (spec/60_exceptions.md R175). -/
theorem commandResult_congr {i : Instr} {s s' : State} (h : operandsAgree i s s') :
    commandResult i s' = commandResult i s := by
  have hi : s.inputAgrees s' →
      s'.memRead .ibuf 0 s'.inLen.toNat = s.memRead .ibuf 0 s.inLen.toNat := by
    intro h; rw [← h.1]; exact State.memRead_congr fun i hi => (h.2 i hi).symm
  have hp : s.payloadAgrees s' →
      s'.memRead .dbuf 0 s'.cLength.toNat = s.memRead .dbuf 0 s.cLength.toNat := by
    intro h; rw [← h.2.1]; exact State.memRead_congr fun i hi => (h.2.2 i hi).symm
  cases i <;> first | exact h.elim | simp only [operandsAgree] at h
  case nop => rfl
  case tagFromBytes => simp only [commandResult, encode, tagFromBytesResult, h]
  case tagFromText =>
    simp only [commandResult, encode, tagFromTextResult, ← h.1]
    by_cases hl : s.inLen.toNat = 4
    · rw [h.2 0 (by omega), h.2 1 (by omega), h.2 2 (by omega), h.2 3 (by omega)]
    · rw [if_pos hl, if_pos hl]
  case chunkNew =>
    have e := hi h.2.2
    simp only [commandResult, encode, chunkNewResult]
    rw [e, h.1, h.2.1, h.2.2.1]
  case chunkSerialize =>
    have e := hp h.2.2
    simp only [commandResult, encode, chunkSerializeResult]
    rw [e, h.1, h.2.1, h.2.2.1, h.2.2.2.1]
  case chunkParse => simp only [commandResult, encode, chunkParseResult, hi h]
  case chunkTextCheck => simp only [commandResult, encode, chunkTextCheckResult, hp h, ← h.1]
  case illegal w => rfl

end Sys2Proof.Machine
end

