-- ==== Sys2Proof/Laws/Crc.lean ====
section
/-! SUPPORT. The CRC unit: a bit step is linear in the running value, and eight of them split into a shift
and the steps of the low byte. -/

namespace Sys2Proof.Machine

/-- A bit step of a sum is the sum of the bit steps. -/
theorem crcBit_xor (x y : Word) : crcBit (x ^^^ y) = crcBit x ^^^ crcBit y := by
  unfold crcBit
  rw [BitVec.getLsbD_xor, BitVec.ushiftRight_xor_distrib]
  generalize x >>> 1 = a; generalize y >>> 1 = b
  cases x.getLsbD 0 <;> cases y.getLsbD 0 <;> simp
  · rw [BitVec.xor_assoc]
  · rw [BitVec.xor_assoc, BitVec.xor_comm b, BitVec.xor_assoc]
  · rw [BitVec.xor_assoc a, BitVec.xor_comm _ (b ^^^ _), BitVec.xor_assoc b]; simp

theorem crcBits_xor (n : Nat) (x y : Word) : crcBits n (x ^^^ y) = crcBits n x ^^^ crcBits n y := by
  induction n generalizing x y with
  | zero => rfl
  | succ n ih => simp [crcBits, crcBit_xor, ih]

/-- Bit steps that shift out zeros alone are a shift. -/
theorem crcBits_eq_shift (n : Nat) (x : Word) (h : ∀ i, i < n → x.getLsbD i = false) :
    crcBits n x = x >>> n := by
  induction n generalizing x with
  | zero => simp [crcBits]
  | succ n ih =>
    have e : crcBit x = x >>> 1 := by unfold crcBit; rw [h 0 (by omega)]; simp
    rw [crcBits, e, ih, ← BitVec.shiftRight_add]
    · congr 1; omega
    · intro i hi; simp; rw [h (1 + i) (by omega)]

theorem highMask_getLsbD {i : Nat} (h : i < 32) : (0xFFFFFF00#32).getLsbD i = decide (8 ≤ i) := by
  have d : ∀ j : Fin 32, (0xFFFFFF00#32).getLsbD j = decide (8 ≤ j.val) := by decide
  exact d ⟨i, h⟩

/-- A word is its upper 24 bits and its low byte. -/
theorem word_eq_high_xor_low (c : Word) :
    c = (c &&& 0xFFFFFF00#32) ^^^ BitVec.ofNat 32 (c.toNat % 256) := by
  apply BitVec.eq_of_getLsbD_eq
  intro i hi
  have hl : (BitVec.ofNat 32 (c.toNat % 256)).getLsbD i = (decide (i < 8) && c.getLsbD i) := by
    rw [BitVec.getLsbD_ofNat, show (256 : Nat) = 2 ^ 8 from rfl, Nat.testBit_mod_two_pow]
    simp [hi, BitVec.testBit_toNat]
  rw [BitVec.getLsbD_xor, BitVec.getLsbD_and, hl, highMask_getLsbD hi]
  by_cases h8 : i < 8
  · simp [h8, show ¬ 8 ≤ i by omega]
  · simp [h8, show 8 ≤ i by omega]

/-- Eight bit steps: the value shifted by 8, and the eight steps of its low byte. -/
theorem crcBits_eight (c : Word) :
    crcBits 8 c = (c >>> 8) ^^^ crcBits 8 (BitVec.ofNat 32 (c.toNat % 256)) := by
  conv_lhs => rw [word_eq_high_xor_low c, crcBits_xor]
  congr 1
  rw [crcBits_eq_shift]
  · apply BitVec.eq_of_getLsbD_eq
    intro i _
    simp only [BitVec.getLsbD_ushiftRight, BitVec.getLsbD_and]
    by_cases hb : 8 + i < 32
    · rw [highMask_getLsbD hb]; simp
    · rw [BitVec.getLsbD_of_ge c _ (by omega)]; simp
  · intro i hi
    rw [BitVec.getLsbD_and, highMask_getLsbD (by omega)]
    simp; omega

end Sys2Proof.Machine
end

