-- ==== Sys2Proof/Laws/HostProgram.lean ====
section
/-! SUPPORT. What LOAD_IBUF leaves: the bytes in IBUF and their count in IN_LEN (spec/30_encoding.md R81);
and that placing the engine's turns keeps a program's transactions and their order. -/

namespace Sys2Proof.Machine

@[simp] theorem placeTurns_none (l : List Input) : placeTurns [] l = l := by cases l <;> rfl

/-- The engine's turns aside, the entries are the program's, in its order. -/
theorem placeTurns_keepsEntries (turns : List Bool) (l : List Input) :
    (placeTurns turns l).filter (fun a => !decide (a = .engine)) =
      l.filter (fun a => !decide (a = .engine)) := by
  induction l generalizing turns with
  | nil => cases turns <;> rfl
  | cons a rest ih =>
    cases turns with
    | nil => rfl
    | cons turn turns => cases turn <;> simp [placeTurns, List.filter_cons, ih]

/-- Writing bytes from index `i` on changes IBUF alone, and there the bytes written. -/
theorem foldl_writeBytes (bytes : List Byte) (i : Nat) (s : State) (hr : s.rst = false)
    (hb : s.status.busy = false) (hl : i + bytes.length ≤ s.ibufSize) :
    ∃ m, (writeBytes i bytes).foldl (fun t a => performAccess a t) s = { s with ibuf := m } ∧
      ∀ j, State.byteAt { s with ibuf := m } .ibuf j =
        if i ≤ j then bytes.getD (j - i) (s.byteAt .ibuf j) else s.byteAt .ibuf j := by
  induction bytes generalizing i s with
  | nil => exact ⟨s.ibuf, rfl, fun j => by simp⟩
  | cons b bs ih =>
    simp only [List.length_cons] at hl
    have hw : performAccess (.bufWrite .ibuf i b) s = { s with ibuf := Memory.write s.ibuf i b } := by
      simp [performAccess, bufWrite, hr, hb, show ¬ s.ibufSize ≤ i by omega]
    obtain ⟨m, h1, h2⟩ := ih (i + 1) { s with ibuf := Memory.write s.ibuf i b } hr hb
      (by show i + 1 + bs.length ≤ s.ibufSize; omega)
    refine ⟨m, ?_, fun j => ?_⟩
    · rw [writeBytes, List.foldl_cons, hw]; exact h1
    · have h2 := h2 j
      rw [byteAt_write] at h2
      refine h2.trans ?_
      by_cases hj : j = i
      · subst hj; simp
      · by_cases hij : i ≤ j
        · rw [if_pos (by omega), if_neg hj, if_pos hij, show j - i = j - (i + 1) + 1 by omega]
          simp
        · rw [if_neg (by omega), if_neg hj, if_neg hij]

/-- LOAD_IBUF into an idle block: the bytes, their count, and nothing else. -/
theorem loadIbuf_spec (bytes : List Byte) (s : State) (hr : s.rst = false)
    (hb : s.status.busy = false) (hl : bytes.length ≤ s.ibufSize) :
    ∃ m n, loadIbuf bytes s = { s with ibuf := m, inLen := n } ∧ n.toNat = bytes.length ∧
      State.memRead { s with ibuf := m, inLen := n } .ibuf 0 bytes.length = bytes := by
  obtain ⟨m, h1, h2⟩ := foldl_writeBytes bytes 0 s hr hb (by omega)
  refine ⟨m, s.clampLen (countWord bytes.length), ?_, ?_, ?_⟩
  · rw [loadIbuf, h1]
    exact regWrite_inLen_idle (s := { s with ibuf := m }) _ hr hb
  · have := s.cfgIbufSize.isLt
    rw [clampLen_toNat, countWord, BitVec.toNat_ofNat]
    unfold State.ibufSize at hl ⊢
    rw [Nat.mod_eq_of_lt (by omega)]; omega
  · apply List.ext_getElem?
    intro j
    by_cases hj : j < bytes.length
    · rw [State.memRead_getElem? _ _ _ _ _ hj, Nat.zero_add]
      refine (congrArg some (h2 j)).trans ?_
      simp [hj]
    · rw [List.getElem?_eq_none (by simp; omega), List.getElem?_eq_none (by omega)]

end Sys2Proof.Machine
end

