-- ==== Sys2Proof/Laws/PerInstr.lean ====
section
/-! SUPPORT. The family DecodesBack, one lemma per constructor of `Instr`: a well-formed instruction is
read back from its own encoding. -/

namespace Sys2Proof.Laws.DecodesBack

open Sys2Proof

/-- A well-formed instruction is read back from its own encoding. -/
def Statement (i : Instr) : Prop := i.wf = true → decode (encode i) = .ok i

theorem nop : Statement .nop := fun _ => rfl

theorem tagFromBytes : Statement .tagFromBytes := fun _ => rfl

theorem tagFromText : Statement .tagFromText := fun _ => rfl

theorem chunkNew : Statement .chunkNew := fun _ => rfl

theorem chunkSerialize : Statement .chunkSerialize := fun _ => rfl

theorem chunkParse : Statement .chunkParse := fun _ => rfl

theorem chunkTextCheck : Statement .chunkTextCheck := fun _ => rfl

theorem illegal (w : Word) : Statement (.illegal w) := by
  intro h
  have h' : legalCommandWord w = false := by simpa [Instr.wf] using h
  show Except.ok (decodeCommand w) = .ok (.illegal w)
  rw [decodeCommand_illegal h']

theorem tagBytes : Statement .tagBytes := fun _ => rfl

theorem tagText : Statement .tagText := fun _ => rfl

theorem tagIsCritical : Statement .tagIsCritical := fun _ => rfl

theorem tagIsPublic : Statement .tagIsPublic := fun _ => rfl

theorem tagIsRsvOk : Statement .tagIsRsvOk := fun _ => rfl

theorem tagIsSafeCopy : Statement .tagIsSafeCopy := fun _ => rfl

theorem tagIsValid : Statement .tagIsValid := fun _ => rfl

theorem chunkLength : Statement .chunkLength := fun _ => rfl

theorem chunkType : Statement .chunkType := fun _ => rfl

theorem chunkData (i : Nat) : Statement (.chunkData i) := fun _ => rfl

theorem chunkCrc : Statement .chunkCrc := fun _ => rfl

theorem chunkFlags : Statement .chunkFlags := fun _ => rfl

theorem frameRead (i : Option Nat) : Statement (.frameRead i) := by
  cases i <;> exact fun _ => rfl

theorem writeCmd (w : Word) : Statement (.writeCmd w) := fun _ => rfl

theorem writeTagIn (v : Word) : Statement (.writeTagIn v) := fun _ => rfl

theorem writeInLen (v : Word) : Statement (.writeInLen v) := fun _ => rfl

theorem writeIbuf (i : Nat) (b : Byte) : Statement (.writeIbuf i b) := fun _ => rfl

theorem readStatus : Statement .readStatus := fun _ => rfl

theorem readErrCode : Statement .readErrCode := fun _ => rfl

theorem readErrInfo0 : Statement .readErrInfo0 := fun _ => rfl

theorem readErrInfo1 : Statement .readErrInfo1 := fun _ => rfl

theorem readCfgIbufSize : Statement .readCfgIbufSize := fun _ => rfl

theorem readCfgDbufSize : Statement .readCfgDbufSize := fun _ => rfl

theorem readCfgObufSize : Statement .readCfgObufSize := fun _ => rfl

theorem readTagIn : Statement .readTagIn := fun _ => rfl

theorem readInLen : Statement .readInLen := fun _ => rfl

end Sys2Proof.Laws.DecodesBack
end

