-- ==== Sys2Proof/Laws/Utf8.lean ====
section
/-! SUPPORT. The UTF-8 table and its scan: no two rows match one sequence, and what the scan returns. -/

namespace Sys2Proof.Machine

theorem utf8Rows_length_pos : ∀ row ∈ utf8Rows, 0 < row.length := by decide

theorem rowMatches_length (row : List ByteRange) (d : List Byte) (h : rowMatches row d = true) :
    row.length ≤ d.length := by
  induction row generalizing d with
  | nil => simp
  | cons r rs ih =>
    cases d with
    | nil => simp [rowMatches] at h
    | cons b bs => simp [rowMatches] at h; simp; exact ih bs h.2

theorem rowMatches_take (row : List ByteRange) (d : List Byte) :
    rowMatches row (d.take row.length) = rowMatches row d := by
  induction row generalizing d with
  | nil => simp [rowMatches]
  | cons r rs ih =>
    cases d with
    | nil => simp
    | cons b bs => simp [rowMatches, ih]

theorem rowMatches_append (row : List ByteRange) (d e : List Byte) (h : row.length ≤ d.length) :
    rowMatches row (d ++ e) = rowMatches row d := by
  induction row generalizing d with
  | nil => simp [rowMatches]
  | cons r rs ih =>
    cases d with
    | nil => simp at h
    | cons b bs => simp at h; simp [rowMatches, ih bs h]

/-- No byte is in the first range of two rows of the table. -/
theorem utf8Rows_firstBytes : ∀ r1 ∈ utf8Rows, ∀ r2 ∈ utf8Rows, ∀ b : Byte,
    (∃ q ∈ r1.head?, q.has b = true) → (∃ q ∈ r2.head?, q.has b = true) → r1 = r2 := by
  decide +kernel

/-- Sequences that begin with the same byte match the same row. -/
theorem utf8Rows_unique {r1 r2 : List ByteRange} (h1 : r1 ∈ utf8Rows) (h2 : r2 ∈ utf8Rows)
    {d e : List Byte} (m1 : rowMatches r1 d = true) (m2 : rowMatches r2 e = true)
    (hd : d.head? = e.head?) : r1 = r2 := by
  have l1 := utf8Rows_length_pos _ h1
  have l2 := utf8Rows_length_pos _ h2
  cases r1 with
  | nil => simp at l1
  | cons q1 r1 =>
    cases r2 with
    | nil => simp at l2
    | cons q2 r2 =>
      cases d with
      | nil => simp [rowMatches] at m1
      | cons b d =>
        cases e with
        | nil => simp [rowMatches] at m2
        | cons c e =>
          simp at hd; subst hd
          simp [rowMatches] at m1 m2
          exact utf8Rows_firstBytes _ h1 _ h2 b ⟨q1, by simp, m1.1⟩ ⟨q2, by simp, m2.1⟩

theorem utf8SeqLen_some {d : List Byte} {k : Nat} (h : utf8SeqLen d = some k) :
    ∃ row ∈ utf8Rows, rowMatches row d = true ∧ k = row.length := by
  simp only [utf8SeqLen, Option.map_eq_some_iff] at h
  obtain ⟨row, hf, hk⟩ := h
  exact ⟨row, List.mem_of_find?_eq_some hf, List.find?_some (p := fun row => rowMatches row d) hf,
    hk.symm⟩

theorem utf8SeqLen_none {d : List Byte} :
    utf8SeqLen d = none ↔ ∀ row ∈ utf8Rows, rowMatches row d = false := by
  simp [utf8SeqLen, List.find?_eq_none]

/-- Everything the scan can return: it moves past a well-formed prefix, to the end or to an index at which
no row matches (spec/42_chunk.md R125). -/
theorem utf8Scan_spec (fuel i : Nat) (d : List Byte) (hf : d.length ≤ fuel) :
    ∃ k, utf8Scan fuel i d = i + k ∧ k ≤ d.length ∧ WellFormedUtf8 (d.take k) ∧
      (k < d.length → ∀ row ∈ utf8Rows, rowMatches row (d.drop k) = false) := by
  induction fuel generalizing i d with
  | zero =>
    obtain rfl : d = [] := by simpa using hf
    exact ⟨0, rfl, by simp, .nil, by simp⟩
  | succ f ih =>
    cases d with
    | nil => exact ⟨0, rfl, by simp, .nil, by simp⟩
    | cons b d =>
      cases h : utf8SeqLen (b :: d) with
      | none =>
        exact ⟨0, by simp [utf8Scan, h], by simp, .nil, fun _ => by simpa using utf8SeqLen_none.1 h⟩
      | some n =>
        obtain ⟨row, hr, hm, hn⟩ := utf8SeqLen_some h
        have hl := utf8Rows_length_pos _ hr
        have hle := rowMatches_length _ _ hm
        obtain ⟨k, e, hk, hw, hno⟩ := ih (i + n) ((b :: d).drop n) (by simp at hf hle ⊢; omega)
        refine ⟨n + k, by simp [utf8Scan, h, e]; omega, by simp at hk hle ⊢; omega, ?_, ?_⟩
        · rw [List.take_add]
          refine .cons row _ _ hr (by simp; simp at hle; omega) ?_ hw
          rw [hn, rowMatches_take, hm]
        · intro hlt row' hr'
          rw [← List.drop_drop]
          exact hno (by simp at hlt ⊢; omega) row' hr'

/-- Inside a well-formed sequence a row matches wherever a well-formed prefix ends. -/
theorem wellFormed_row_after_prefix {d : List Byte} (hw : WellFormedUtf8 d) {k : Nat}
    (h1 : WellFormedUtf8 (d.take k)) (hk : k < d.length) :
    ∃ row ∈ utf8Rows, rowMatches row (d.drop k) = true := by
  induction hw generalizing k with
  | nil => simp at hk
  | cons row seq rest hr hl hm hw ih =>
    cases hk0 : k with
    | zero =>
      refine ⟨row, hr, ?_⟩
      simp; rw [rowMatches_append _ _ _ (by omega)]; exact hm
    | succ k' =>
      rw [← hk0]
      generalize ht : (seq ++ rest).take k = d' at h1
      cases h1 with
      | nil =>
        have := congrArg List.length ht
        rw [List.length_take, List.length_nil] at this; omega
      | cons row2 seq2 rest2 hr2 hl2 hm2 hw2 =>
        have p2 := utf8Rows_length_pos _ hr2
        have p1 := utf8Rows_length_pos _ hr
        obtain rfl : row = row2 := by
          apply utf8Rows_unique hr hr2 hm hm2
          have := congrArg List.head? ht
          rw [List.head?_take, if_neg (by omega)] at this
          cases seq with
          | nil => simp at hl; omega
          | cons a seq =>
            cases seq2 with
            | nil => simp at hl2; omega
            | cons c seq2 => simpa using this
        have hlen : seq.length ≤ k := by
          have := congrArg List.length ht
          simp at this; omega
        obtain rfl : rest2 = rest.take (k - seq.length) := by
          rw [List.take_append, List.take_of_length_le hlen] at ht
          exact (List.append_inj ht (by omega)).2.symm
        obtain ⟨r, hr', hm'⟩ := ih hw2 (by simp at hk; omega)
        refine ⟨r, hr', ?_⟩
        rw [List.drop_append, List.drop_of_length_le hlen]
        simpa using hm'

end Sys2Proof.Machine
end

