-- ==== Sys2Proof/Tests/Slice0.lean ====
section
/-! SUPPORT. Tests with expected values from spec/95_test_vectors.md and the tables of
spec/30_encoding.md, and for each statement with hypotheses a concrete state and operands that meet them. -/

namespace Sys2Proof.Tests

open Sys2Proof Sys2Proof.Machine

/-! ### Small states, IBUF_SIZE = 64 -/

/-- Bytes from their values. -/
def bytes (l : List Nat) : List Byte := l.map (BitVec.ofNat 8)

/-- After reset. -/
def s0 : State := State.resetWith 64

/-- With a text, payload or frame in IBUF and its length in IN_LEN. -/
def withInput (l : List Nat) (s : State) : State :=
  { s with ibuf := Memory.ofBytes (bytes l), inLen := countWord l.length }

/-- With a constructed tag. -/
def withTag (t : Word) (s : State) : State := { s with tBytes := t, tValid := true }

/-- With a chunk. -/
def withChunk (t crc : Word) (l : List Nat) (s : State) : State :=
  { s with cLength := countWord l.length, cType := t, cCrc := crc, cValid := true,
           dbuf := Memory.ofBytes (bytes l) }

/-- With a frame in OBUF. -/
def withFrame (l : List Nat) (s : State) : State :=
  { s with outLen := countWord l.length, obuf := Memory.ofBytes (bytes l) }

/-- With transactions to come. -/
def withInputs (l : List Input) (s : State) : State := { s with inputs := l }

/-- The tag "RuSt". -/
def ruSt : Word := 0x52755374#32

/-- The frame of the chunk "RuSt", "Hi" (V6). -/
def hiFrame : List Nat :=
  [0x00, 0x00, 0x00, 0x02, 0x52, 0x75, 0x53, 0x74, 0x48, 0x69, 0x47, 0x38, 0x1B, 0xD1]

/-- A block that holds the tag, the chunk and the frame of "RuSt", "Hi". -/
def sHi : State :=
  withFrame hiFrame (withChunk ruSt 0x47381BD1#32 [0x48, 0x69] (withTag ruSt s0))

/-- The same while CHUNK_PARSE runs. -/
def sBusy : State := sHi.accept 0x00000005#32

/-- After a command that ended with an error. -/
def sErr : State := raiseError .badByte 0x31#32 0#32 sHi

/-- The outcome is a next state with the property. -/
def after (o : Host.Outcome State Fault Refusal) (p : State → Bool) : Bool :=
  match o with
  | .next t => p t
  | .fault _ => false
  | .refused _ => false

/-- The errors a state records, as ERR_CODE, ERR_INFO0, ERR_INFO1. -/
def errorWords (s : State) : Word × Word × Word := (s.errCode, s.errInfo0, s.errInfo1)

/-! ### Well-formedness (spec/30_encoding.md R72) -/

theorem test_wf_refuses_nop_as_illegal : (Instr.illegal 0x00000000#32).wf = false := by decide
theorem test_wf_refuses_last_command_as_illegal : (Instr.illegal 0x00000006#32).wf = false := by decide
theorem test_wf_accepts_reserved_op : (Instr.illegal 0x00000007#32).wf = true := by decide
theorem test_wf_accepts_nonzero_upper_bits : (Instr.illegal 0x00000105#32).wf = true := by decide

/-! ### Decoding: each constructor from its row of R71, R78 and R79, written out -/

theorem test_decode_commands :
    decode (.command 0x00000000#32) = .ok .nop ∧
    decode (.command 0x00000001#32) = .ok .tagFromBytes ∧
    decode (.command 0x00000002#32) = .ok .tagFromText ∧
    decode (.command 0x00000003#32) = .ok .chunkNew ∧
    decode (.command 0x00000004#32) = .ok .chunkSerialize ∧
    decode (.command 0x00000005#32) = .ok .chunkParse ∧
    decode (.command 0x00000006#32) = .ok .chunkTextCheck := by decide

theorem test_decode_illegal :
    decode (.command 0x00000007#32) = .ok (.illegal 0x00000007#32) ∧
    decode (.command 0x00000105#32) = .ok (.illegal 0x00000105#32) ∧
    decode (.command 0x80000003#32) = .ok (.illegal 0x80000003#32) ∧
    decode (.command 0xFFFFFFFF#32) = .ok (.illegal 0xFFFFFFFF#32) := by decide

theorem test_decode_tag_accessors :
    decode (.access (.regRead 0x1C 32 .whole)) = .ok .tagBytes ∧
    decode (.access (.regRead 0x1C 32 .text)) = .ok .tagText ∧
    decode (.access (.regRead 0x20 32 (.bit 1))) = .ok .tagIsCritical ∧
    decode (.access (.regRead 0x20 32 (.bit 2))) = .ok .tagIsPublic ∧
    decode (.access (.regRead 0x20 32 (.bit 3))) = .ok .tagIsRsvOk ∧
    decode (.access (.regRead 0x20 32 (.bit 4))) = .ok .tagIsSafeCopy ∧
    decode (.access (.regRead 0x20 32 (.bit 5))) = .ok .tagIsValid := by decide

theorem test_decode_chunk_accessors :
    decode (.access (.regRead 0x24 32 .whole)) = .ok .chunkLength ∧
    decode (.access (.regRead 0x28 32 .whole)) = .ok .chunkType ∧
    decode (.access (.bufRead .dbuf 7)) = .ok (.chunkData 7) ∧
    decode (.access (.regRead 0x2C 32 .whole)) = .ok .chunkCrc ∧
    decode (.access (.regRead 0x30 32 .whole)) = .ok .chunkFlags ∧
    decode (.access (.regRead 0x34 32 .whole)) = .ok (.frameRead none) ∧
    decode (.access (.bufRead .obuf 13)) = .ok (.frameRead (some 13)) := by decide

theorem test_decode_writes :
    decode (.access (.regWrite 0x00 32 0x00000105#32)) = .ok (.writeCmd 0x00000105#32) ∧
    decode (.access (.regWrite 0x14 32 0x52755374#32)) = .ok (.writeTagIn 0x52755374#32) ∧
    decode (.access (.regWrite 0x18 32 0x0000000E#32)) = .ok (.writeInLen 0x0000000E#32) ∧
    decode (.access (.bufWrite .ibuf 13 0xD0#8)) = .ok (.writeIbuf 13 0xD0#8) := by decide

theorem test_decode_reads :
    decode (.access (.regRead 0x04 32 .whole)) = .ok .readStatus ∧
    decode (.access (.regRead 0x08 32 .whole)) = .ok .readErrCode ∧
    decode (.access (.regRead 0x0C 32 .whole)) = .ok .readErrInfo0 ∧
    decode (.access (.regRead 0x10 32 .whole)) = .ok .readErrInfo1 ∧
    decode (.access (.regRead 0x38 32 .whole)) = .ok .readCfgIbufSize ∧
    decode (.access (.regRead 0x3C 32 .whole)) = .ok .readCfgDbufSize ∧
    decode (.access (.regRead 0x40 32 .whole)) = .ok .readCfgObufSize ∧
    decode (.access (.regRead 0x14 32 .whole)) = .ok .readTagIn ∧
    decode (.access (.regRead 0x18 32 .whole)) = .ok .readInLen := by decide

theorem test_decode_names_what_is_no_row :
    decode (.access (.regRead 0x44 32 .whole)) = .error .noReadRow ∧
    decode (.access (.regRead 0x04 16 .whole)) = .error .wrongWidth ∧
    decode (.access (.regWrite 0x1C 32 0x41414141#32)) = .error .noWriteRow ∧
    decode (.access (.bufRead .ibuf 0)) = .error .ibufRead ∧
    decode (.access (.bufWrite .obuf 0 0x11#8)) = .error .readOnlyBuffer := by decide

theorem test_decodeTableWord :
    decodeTableWord 32 0x00000005 = some .chunkParse ∧
    decodeTableWord 32 0x00000105 = some (.illegal 0x00000105#32) ∧
    decodeTableWord 8 0x1C = some .tagBytes ∧ decodeTableWord 8 0x20 = some .tagIsCritical ∧
    decodeTableWord 8 0x00 = some (.writeCmd 0#32) ∧ decodeTableWord 8 0x04 = some .readStatus ∧
    decodeTableWord 8 0x44 = none := by decide

theorem test_withFetchWord_runs_a_command :
    after (step (State.reset.withFetchWord 32 0x00000105))
      (fun t => errorWords t == (0x10#32, 0x00000105#32, 0#32)) = true := by decide

theorem test_withFetchWord_runs_a_transaction :
    after (step (State.reset.withFetchWord 8 0x40)) (fun t => t.reply.value == .word 0x4C#32) = true := by
  decide

/-! ### Control commands and host writes (V9) -/

theorem test_nop_clears_an_error :
    after (exec .nop sErr) (fun t => t.status.toWord == 0x2#32 && errorWords t == (0#32, 0#32, 0#32)) = true := by
  decide

theorem test_illegal_records_the_word :
    after (exec (.illegal 0x00000105#32) sHi)
      (fun t => t.status.toWord == 0x6#32 && errorWords t == (0x10#32, 0x00000105#32, 0#32) &&
        t.cCrc == 0x47381BD1#32) = true := by decide

theorem test_step_decodes_before_the_precondition :
    after (step (s0.accept 0x80000003#32)) (fun t => t.errCode == 0x10#32) = true := by decide

theorem test_writeCmd_accepts :
    after (exec (.writeCmd 0x00000005#32) sErr)
      (fun t => t.status.toWord == 0x1#32 && t.running == some 0x00000005#32) = true := by decide

theorem test_writeCmd_while_busy_sets_ovr :
    after (exec (.writeCmd 0x00000001#32) sBusy)
      (fun t => t.status.toWord == 0x9#32 && t.running == some 0x00000005#32) = true := by decide

theorem test_writeTagIn : after (exec (.writeTagIn ruSt) s0)
    (fun t => t.tagIn == 0x52755374#32 && t.tBytes == 0#32) = true := by decide

theorem test_writeTagIn_while_busy : after (exec (.writeTagIn ruSt) sBusy)
    (fun t => t.tagIn == 0#32 && t.status.toWord == 0x9#32) = true := by decide

theorem test_writeInLen_clamps :
    after (exec (.writeInLen 0x41#32) s0) (fun t => t.inLen == 0x40#32) = true := by decide

theorem test_writeInLen_keeps_the_size :
    after (exec (.writeInLen 0x40#32) s0) (fun t => t.inLen == 0x40#32) = true := by decide

theorem test_writeIbuf_last_byte :
    after (exec (.writeIbuf 63 0x11#8) s0) (fun t => t.ibuf == [(63, 0x11#8)]) = true := by decide

theorem test_writeIbuf_beyond_is_dropped :
    after (exec (.writeIbuf 64 0x11#8) sBusy) (fun t => t.ibuf == [] && t.status.toWord == 0x1#32) = true := by
  decide

/-! ### Tags (W1 to W4, V1 to V3) -/

theorem test_tagFromBytes_RuSt :
    after (exec .tagFromBytes { s0 with tagIn := 0x52755374#32 })
      (fun t => t.tBytes == 0x52755374#32 && regWord .tStatus t == 0x3B#32 && t.errCode == 0#32) = true := by
  decide

theorem test_tagFromBytes_lowest_bad_byte :
    after (exec .tagFromBytes { withTag ruSt s0 with tagIn := 0x52315332#32 })
      (fun t => errorWords t == (0x01#32, 0x31#32, 0#32) && t.tBytes == 0x52755374#32 &&
        regWord .tStatus t == 0x3B#32) = true := by decide

theorem test_tagFromText_Rust :
    after (exec .tagFromText (withInput [0x52, 0x75, 0x73, 0x74] s0))
      (fun t => t.tBytes == 0x52757374#32 && regWord .tStatus t == 0x13#32) = true := by decide

theorem test_tagFromText_length_before_bytes :
    after (exec .tagFromText (withInput [0x52, 0x75, 0x31, 0x74, 0x58] s0))
      (fun t => errorWords t == (0x02#32, 5#32, 0#32) && t.tValid == false) = true := by decide

theorem test_tagBytes : after (exec .tagBytes sHi) (fun t => t.reply.value == .word 0x52755374#32) = true := by
  decide

theorem test_tagText : after (exec .tagText sHi) (fun t => t.reply.value == .text 'R' 'u' 'S' 't') = true := by
  decide

theorem test_tagIsCritical :
    after (exec .tagIsCritical sHi) (fun t => t.reply.value == .flag true) = true ∧
    after (exec .tagIsCritical (withTag 0x72755374#32 s0)) (fun t => t.reply.value == .flag false) = true := by
  decide

theorem test_tagIsPublic :
    after (exec .tagIsPublic sHi) (fun t => t.reply.value == .flag false) = true ∧
    after (exec .tagIsPublic (withTag 0x52555374#32 s0)) (fun t => t.reply.value == .flag true) = true := by
  decide

theorem test_tagIsRsvOk :
    after (exec .tagIsRsvOk sHi) (fun t => t.reply.value == .flag true) = true ∧
    after (exec .tagIsRsvOk (withTag 0x52757374#32 s0)) (fun t => t.reply.value == .flag false) = true := by
  decide

theorem test_tagIsSafeCopy :
    after (exec .tagIsSafeCopy sHi) (fun t => t.reply.value == .flag true) = true ∧
    after (exec .tagIsSafeCopy (withTag 0x52755354#32 s0)) (fun t => t.reply.value == .flag false) = true := by
  decide

theorem test_tagIsValid :
    after (exec .tagIsValid sHi) (fun t => t.reply.value == .flag true) = true ∧
    after (exec .tagIsValid (withTag 0x52757374#32 s0)) (fun t => t.reply.value == .flag false) = true := by
  decide

/-! ### Chunks (V4 to V8, W7) -/

theorem test_crc_check_value :
    crc32 (bytes [0x31, 0x32, 0x33, 0x34, 0x35, 0x36, 0x37, 0x38, 0x39]) = 0xCBF43926#32 := by
  decide +kernel

theorem test_chunkNew_Hi :
    after (exec .chunkNew (withInput [0x48, 0x69] (withTag ruSt s0)))
      (fun t => t.cLength == 2#32 && t.cType == 0x52755374#32 && t.cCrc == 0x47381BD1#32 &&
        regWord .cStatus t == 0x3B#32 && t.dbuf == [(0, 0x48#8), (1, 0x69#8)]) = true := by
  decide +kernel

theorem test_chunkNew_no_tag :
    after (exec .chunkNew (withInput [0x48] s0))
      (fun t => errorWords t == (0x11#32, 0#32, 0#32) && t.cValid == false) = true := by decide

theorem test_chunkSerialize_Hi :
    after (exec .chunkSerialize (withChunk ruSt 0x47381BD1#32 [0x48, 0x69] s0))
      (fun t => t.outLen == 14#32 && t.obuf == Memory.ofBytes (bytes hiFrame)) = true := by decide

theorem test_chunkSerialize_no_chunk :
    after (exec .chunkSerialize s0) (fun t => errorWords t == (0x12#32, 0#32, 0#32) && t.outLen == 0#32) = true := by
  decide

theorem test_chunkParse_ignores_trailing_bytes :
    after (exec .chunkParse (withInput (hiFrame ++ [0xAA, 0xBB]) s0))
      (fun t => t.errCode == 0#32 && t.cLength == 2#32 && t.cCrc == 0x47381BD1#32 &&
        t.dbuf == [(0, 0x48#8), (1, 0x69#8)]) = true := by decide +kernel

theorem test_chunkParse_largest_length :
    after (exec .chunkParse (withInput
        [0xFF, 0xFF, 0xFF, 0xFF, 0x52, 0x75, 0x53, 0x74, 0, 0, 0, 0, 0, 0, 0, 0] sHi))
      (fun t => errorWords t == (0x03#32, 8#32, 0xFFFFFFFF#32) && t.cCrc == 0x47381BD1#32) = true := by
  decide +kernel

theorem test_chunkTextCheck_largest_code_point :
    after (exec .chunkTextCheck (withChunk ruSt 0#32 [0xF4, 0x8F, 0xBF, 0xBF] s0))
      (fun t => t.errCode == 0#32) = true := by decide +kernel

theorem test_chunkTextCheck_truncated :
    after (exec .chunkTextCheck (withChunk ruSt 0#32 [0x41, 0xE2, 0x82] s0))
      (fun t => errorWords t == (0x08#32, 1#32, 0#32)) = true := by decide +kernel

theorem test_chunkLength :
    after (exec .chunkLength sHi) (fun t => t.reply.value == .word 2#32) = true := by decide

theorem test_chunkType :
    after (exec .chunkType sHi) (fun t => t.reply.value == .word 0x52755374#32) = true := by decide

theorem test_chunkData : after (exec (.chunkData 1) sHi) (fun t => t.reply.value == .byte 0x69#8) = true := by
  decide

theorem test_chunkData_beyond : after (exec (.chunkData 64) sHi) (fun t => t.reply.value == .byte 0#8) = true := by
  decide

theorem test_chunkCrc :
    after (exec .chunkCrc sHi) (fun t => t.reply.value == .word 0x47381BD1#32) = true := by decide

theorem test_chunkFlags :
    after (exec .chunkFlags sHi) (fun t => t.reply.value == .word 0x3B#32) = true := by decide

theorem test_frameRead_length :
    after (exec (.frameRead none) sHi) (fun t => t.reply.value == .word 14#32) = true := by decide

theorem test_frameRead_last_byte :
    after (exec (.frameRead (some 13)) sHi) (fun t => t.reply.value == .byte 0xD1#8) = true := by decide

/-! ### Reads (V9) -/

theorem test_readStatus :
    after (exec .readStatus sErr) (fun t => t.reply.value == .word 0x6#32) = true ∧
    after (exec .readStatus sBusy) (fun t => t.reply.value == .word 0x1#32) = true := by decide

theorem test_readErrors :
    after (exec .readErrCode sErr) (fun t => t.reply.value == .word 0x01#32) = true ∧
    after (exec .readErrInfo0 sErr) (fun t => t.reply.value == .word 0x31#32) = true ∧
    after (exec .readErrInfo1 sErr) (fun t => t.reply.value == .word 0#32) = true := by decide

theorem test_readCfg :
    after (exec .readCfgIbufSize sBusy) (fun t => t.reply.value == .word 0x40#32) = true ∧
    after (exec .readCfgDbufSize sBusy) (fun t => t.reply.value == .word 0x40#32) = true ∧
    after (exec .readCfgObufSize sBusy) (fun t => t.reply.value == .word 0x4C#32) = true := by decide

theorem test_readOperands :
    after (exec .readTagIn { sBusy with tagIn := ruSt }) (fun t => t.reply.value == .word 0x52755374#32) = true ∧
    after (exec .readInLen { sBusy with inLen := 14#32 }) (fun t => t.reply.value == .word 14#32) = true := by
  decide

theorem test_unreached_reads :
    (performAccess (.regRead 0x00 32 .whole) sErr).reply = .word 0#32 .whole ∧
    (performAccess (.regRead 0x44 32 .whole) sErr).reply = .word 0#32 .whole ∧
    (performAccess (.regRead 0x06 32 .whole) sErr).reply = .word 0#32 .whole ∧
    (performAccess (.bufRead .obuf 76) sErr).reply = .byte 0#8 := by decide

/-! ### Steps and programs (P1, P5) -/

theorem test_wait_polls_while_busy :
    after (step (withInputs [.wait 2] sBusy))
      (fun t => t.inputs == [.wait 1] && t.reply.value == .word 0x1#32) = true := by decide

theorem test_wait_stops_when_done :
    after (step (withInputs [.wait 2] sErr)) (fun t => t.inputs == [] && t.reply.value == .word 0x6#32) = true := by
  decide

theorem test_reset_abandons_the_command :
    after (step (withInputs [.rst true] sBusy))
      (fun t => t.running == none && t.cValid == false && t.rst && t.status.toWord == 0#32) = true := by decide

theorem test_expand_P1 :
    [HostLine.loadTag 0x52#8 0x75#8 0x53#8 0x74#8, .issue .tagFromBytes, .loadIbuf (bytes [0x48, 0x69])].flatMap
        (HostLine.expand 0) =
      [.access (.regWrite 0x14 32 0x52755374#32), .access (.regWrite 0x00 32 0x00000001#32), .wait 0,
       .access (.bufWrite .ibuf 0 0x48#8), .access (.bufWrite .ibuf 1 0x69#8),
       .access (.regWrite 0x18 32 0x00000002#32)] := by decide

/-- P5's first two lines in both orders the spec allows: the completion after line 2, and before it. -/
theorem test_P5_both_schedules :
    (s0.withProgram [] [(0, .cmd .chunkParse), (0, .wr .inLen 3#32), (1, .wait)]).inputs =
      [.access (.regWrite 0x00 32 5#32), .access (.regWrite 0x18 32 3#32), .wait 1] ∧
    (s0.withProgram [false, true] [(0, .cmd .chunkParse), (0, .wr .inLen 3#32), (0, .wait)]).inputs =
      [.access (.regWrite 0x00 32 5#32), .engine, .access (.regWrite 0x18 32 3#32), .wait 0] := by decide

/-- P5's two outcomes: the write that arrives before the completion is dropped, the one after it is stored. -/
theorem test_P5_both_outcomes :
    after (step (withInputs [.access (.regWrite 0x18 32 3#32), .engine]
        ((withInput hiFrame s0).accept 0x00000005#32)))
      (fun t => t.inLen == 14#32 && t.status.toWord == 0x9#32) = true ∧
    after (step (withInputs [.engine, .access (.regWrite 0x18 32 3#32)]
        ((withInput hiFrame s0).accept 0x00000005#32)))
      (fun t => t.errCode == 0#32 && t.status.toWord == 0x2#32 &&
        t.inputs == [.access (.regWrite 0x18 32 3#32)]) = true := by decide +kernel

/-! ### Witnesses: states and operands that meet the hypotheses of the statements -/

/-- A read of STATUS has arrived: `StepRunsDecodedTransaction`. -/
theorem witness_StepRunsDecodedTransaction :
    (withInputs [.access (.regRead 0x04 32 .whole)] sHi).inputs = [.access (.regRead 0x04 32 .whole)] ∧
    decode (.access (.regRead 0x04 32 .whole)) = .ok .readStatus := by decide

theorem witness_StepPerformsUntabledTransaction :
    (withInputs [.access (.regRead 0x44 32 .whole)] sHi).inputs = [.access (.regRead 0x44 32 .whole)] ∧
    decode (.access (.regRead 0x44 32 .whole)) = .error .noReadRow := by decide

theorem witness_StepCompletesTheRunningCommand :
    (sBusy.running = some 0x00000005#32 ∧ sBusy.inputs = []) ∧
    ((withInputs [.engine] sBusy).running = some 0x00000005#32 ∧
      (withInputs [.engine] sBusy).inputs = [.engine]) ∧
    ((withInputs [.wait 0] sBusy).running = some 0x00000005#32 ∧
      (withInputs [.wait 0] sBusy).inputs = [.wait 0]) := by decide

theorem witness_IdleEngineChangesNothing :
    (sHi.running = none ∧ sHi.inputs = []) ∧
    ((withInputs [.engine] sHi).running = none ∧ (withInputs [.engine] sHi).inputs = [.engine]) := by decide

theorem witness_WaitPollsStatusUntilNotBusy :
    ((withInputs [.wait 3] sHi).inputs = [.wait 3] ∧ (withInputs [.wait 3] sHi).Idle ∧
      (withInputs [.wait 3] sHi).running = none) ∧
    ((withInputs [.wait 1] sBusy).inputs = [.wait 1] ∧ (withInputs [.wait 1] sBusy).Busy ∧ 0 < 1) := by
  unfold State.Idle State.Busy; decide

theorem witness_DecodeAndEncodeAreInverse :
    (Instr.illegal 0x00000007#32).wf = true ∧ Instr.chunkParse.wf = true ∧
    decode (.command 0x00000007#32) = .ok (.illegal 0x00000007#32) ∧
    decode (.access (.bufRead .dbuf 63)) = .ok (.chunkData 63) := by decide

/-- The last command, the first reserved OP, a nonzero upper bit, and a row of the command table. -/
theorem witness_CommandWordSelectsOneCommand :
    ((0x00000006#32).extractLsb 31 8 = 0#24 ∧ (0x00000006#32).extractLsb 7 0 ≤ 0x06#8) ∧
    ¬ ((0x00000007#32).extractLsb 31 8 = 0#24 ∧ (0x00000007#32).extractLsb 7 0 ≤ 0x06#8) ∧
    ¬ ((0x00000100#32).extractLsb 31 8 = 0#24 ∧ (0x00000100#32).extractLsb 7 0 ≤ 0x06#8) ∧
    (0xFFFFFFFF#32, 0x00000006#32, Instr.chunkTextCheck) ∈ commandRows ∧
    0x00000006#32 &&& 0xFFFFFFFF#32 = 0x00000006#32 := by decide

theorem witness_RowsActAsTheirTransactions :
    encode (.frameRead none) = .access (.regRead 0x34 32 .whole) ∧
    encode (.frameRead (some 0)) = .access (.bufRead .obuf 0) := by decide

/-- Idle after reset and after an error, an illegal word beside it: `AcceptanceLatchesTheCommand`,
`NopCompletes`, `RegisterReadsReturnTheRegister`, `TagAccessorsGiveTheFlags`. -/
theorem witness_Idle : s0.Idle ∧ sErr.Idle ∧
    ((0x00000105#32).extractLsb 31 8 ≠ 0#24 ∨ 0x07#8 ≤ (0x00000105#32).extractLsb 7 0) := by
  unfold State.Idle; decide

/-- `RunningCommandsInputsAreFixed`, with OVR clear and with OVR set. -/
theorem witness_Busy : sBusy.Busy ∧ sBusy.setOvr.Busy ∧ sBusy.setOvr.status.ovr = true := by
  unfold State.Busy; decide

theorem witness_WritesWhileBusyAreDropped :
    sBusy.Busy ∧ 63 < sBusy.ibufSize ∧ sBusy.ibufSize ≤ 64 ∧ (16 ≠ 32 ∨ (0x00 ≠ 0x00 ∧ 0x00 ≠ 0x14 ∧ 0x00 ≠ 0x18)) ∧
    (32 ≠ 32 ∨ (0x04 ≠ 0x00 ∧ 0x04 ≠ 0x14 ∧ 0x04 ≠ 0x18)) := by
  unfold State.Busy; decide

/-- `WriteTagInStoresTheValue`, `WriteInLenStoresTheMinimum` (a value above the size and one at it). -/
theorem witness_operandWrites :
    s0.Idle ∧ sBusy.Busy ∧ min (0x41#32).toNat s0.ibufSize = 64 ∧ min (0x40#32).toNat s0.ibufSize = 64 ∧
    min (0#32).toNat s0.ibufSize = 0 := by
  unfold State.Idle State.Busy; decide

theorem witness_WriteIbufStoresOneByte :
    s0.Idle ∧ 0 < s0.ibufSize ∧ 63 < s0.ibufSize ∧ s0.ibufSize ≤ 64 ∧ 62 ≠ 63 := by
  unfold State.Idle; decide

theorem witness_IllegalWordCompletesWithTheWord :
    ((0x00000105#32).extractLsb 31 8 ≠ 0#24 ∨ 0x07#8 ≤ (0x00000105#32).extractLsb 7 0) ∧
    ((0x00000007#32).extractLsb 31 8 ≠ 0#24 ∨ 0x07#8 ≤ (0x00000007#32).extractLsb 7 0) ∧
    ((0x000000FF#32).extractLsb 31 8 ≠ 0#24 ∨ 0x07#8 ≤ (0x000000FF#32).extractLsb 7 0) := by decide

/-- The letters at the ends of the two ranges. -/
theorem witness_CaseBitOfALetter :
    isAlpha 0x41#8 = true ∧ isAlpha 0x5A#8 = true ∧ isAlpha 0x61#8 = true ∧ isAlpha 0x7A#8 = true := by decide

theorem witness_TagFromBytesConstructs :
    ∀ k, k < 4 → isAlpha (wordByte { s0 with tagIn := ruSt }.tagIn k) = true := by decide

theorem witness_TagFromBytesReportsBadByte :
    (3 < 4 ∧ isAlpha (wordByte { s0 with tagIn := 0x52755331#32 }.tagIn 3) = false ∧
      ∀ j, j < 3 → isAlpha (wordByte { s0 with tagIn := 0x52755331#32 }.tagIn j) = true) ∧
    (0 < 4 ∧ isAlpha (wordByte { s0 with tagIn := 0x31313131#32 }.tagIn 0) = false ∧
      ∀ j, j < 0 → isAlpha (wordByte { s0 with tagIn := 0x31313131#32 }.tagIn j) = true) := by decide

theorem witness_TagFromTextConstructs :
    (withInput [0x52, 0x75, 0x53, 0x74] s0).inLen = 4#32 ∧
    ∀ k, k < 4 → isAlpha ((withInput [0x52, 0x75, 0x53, 0x74] s0).byteAt .ibuf k) = true := by
  decide +kernel

theorem witness_TagFromTextReportsItsError :
    s0.inLen ≠ 4#32 ∧ (withInput [0x52, 0x75, 0x53, 0x74, 0x58] s0).inLen ≠ 4#32 ∧
    ((withInput [0x52, 0x75, 0x53, 0x31] s0).inLen = 4#32 ∧ 3 < 4 ∧
      isAlpha ((withInput [0x52, 0x75, 0x53, 0x31] s0).byteAt .ibuf 3) = false ∧
      ∀ j, j < 3 → isAlpha ((withInput [0x52, 0x75, 0x53, 0x31] s0).byteAt .ibuf j) = true) ∧
    ((withInput [0x31, 0x75, 0x53, 0x74] s0).inLen = 4#32 ∧ 0 < 4 ∧
      isAlpha ((withInput [0x31, 0x75, 0x53, 0x74] s0).byteAt .ibuf 0) = false) := by
  decide +kernel

theorem witness_TagStatusWordValues :
    s0.tValid = false ∧ sHi.tValid = true ∧ sHi.tagInv ∧ regWord .tStatus sHi = 0x3B#32 ∧
    (withTag 0x7A5A7A5A#32 s0).tagInv ∧ regWord .tStatus (withTag 0x7A5A7A5A#32 s0) = 0x05#32 := by
  unfold State.tagInv; decide

theorem witness_MissingTagOrChunkIsReported : s0.tValid = false ∧ s0.cValid = false := by decide

theorem witness_ChunkNewBuildsTheChunk :
    (withInput [0x48, 0x69] (withTag ruSt s0)).tValid = true ∧ (withTag ruSt s0).inLen = 0#32 ∧
    (withTag ruSt s0).tValid = true := by decide

theorem witness_ChunkSerializeWritesTheFrame :
    (sHi.cValid = true ∧ sHi.cLength.toNat ≤ Config.maxIbufSize) ∧
    ({ sHi with cLength := 0x80000000#32 }.cValid = true ∧
      { sHi with cLength := 0x80000000#32 }.cLength.toNat ≤ Config.maxIbufSize) := by decide +kernel

/-- IN_LEN exactly at the frame's end. -/
theorem witness_ChunkParseCommitsAValidFrame :
    2 = ((withInput hiFrame s0).ibufWord 0).toNat ∧ 12 + 2 ≤ (withInput hiFrame s0).inLen.toNat ∧
    (∀ k, k < 4 → isAlpha ((withInput hiFrame s0).byteAt .ibuf (4 + k)) = true) ∧
    (withInput hiFrame s0).ibufWord (8 + 2) =
      crc32 ((withInput hiFrame s0).memRead .ibuf 4 4 ++ (withInput hiFrame s0).memRead .ibuf 8 2) := by
  decide +kernel

/-- The four clauses, each at the ends of its range: IN_LEN = 3; 4 and 7; 8 and 9; 10 and 13. -/
theorem witness_ChunkParseReportsTruncation :
    (withInput (hiFrame.take 3) s0).inLen.toNat < 4 ∧
    (4 ≤ (withInput (hiFrame.take 4) s0).inLen.toNat ∧ (withInput (hiFrame.take 7) s0).inLen.toNat < 8) ∧
    (∀ n, n = 8 ∨ n = 9 → 8 ≤ (withInput (hiFrame.take n) s0).inLen.toNat ∧
      (∀ k, k < 4 → isAlpha ((withInput (hiFrame.take n) s0).byteAt .ibuf (4 + k)) = true) ∧
      (withInput (hiFrame.take n) s0).inLen.toNat < 8 + ((withInput (hiFrame.take n) s0).ibufWord 0).toNat) ∧
    (∀ n, n = 10 ∨ n = 13 →
      (∀ k, k < 4 → isAlpha ((withInput (hiFrame.take n) s0).byteAt .ibuf (4 + k)) = true) ∧
      8 + ((withInput (hiFrame.take n) s0).ibufWord 0).toNat ≤ (withInput (hiFrame.take n) s0).inLen.toNat ∧
      (withInput (hiFrame.take n) s0).inLen.toNat <
        12 + ((withInput (hiFrame.take n) s0).ibufWord 0).toNat) := by
  refine ⟨by decide +kernel, by decide +kernel, ?_, ?_⟩
  · rintro n (rfl | rfl) <;> decide +kernel
  · rintro n (rfl | rfl) <;> decide +kernel

theorem witness_ChunkParseReportsABadTag :
    8 ≤ (withInput [0, 0, 0, 0, 0x52, 0x75, 0x53, 0x31] s0).inLen.toNat ∧ 3 < 4 ∧
    isAlpha ((withInput [0, 0, 0, 0, 0x52, 0x75, 0x53, 0x31] s0).byteAt .ibuf (4 + 3)) = false ∧
    ∀ j, j < 3 → isAlpha ((withInput [0, 0, 0, 0, 0x52, 0x75, 0x53, 0x31] s0).byteAt .ibuf (4 + j)) = true := by
  decide +kernel

theorem witness_ChunkParseReportsABadCrc :
    2 = ((withInput (hiFrame.take 13 ++ [0xD0]) s0).ibufWord 0).toNat ∧
    0x47381BD1#32 = crc32 ((withInput (hiFrame.take 13 ++ [0xD0]) s0).memRead .ibuf 4 4 ++
      (withInput (hiFrame.take 13 ++ [0xD0]) s0).memRead .ibuf 8 2) ∧
    12 + 2 ≤ (withInput (hiFrame.take 13 ++ [0xD0]) s0).inLen.toNat ∧
    (∀ k, k < 4 → isAlpha ((withInput (hiFrame.take 13 ++ [0xD0]) s0).byteAt .ibuf (4 + k)) = true) ∧
    (withInput (hiFrame.take 13 ++ [0xD0]) s0).ibufWord (8 + 2) ≠ 0x47381BD1#32 := by
  decide +kernel

/-- Bit 0 of the checksum field changed, and bit 31 (W7). -/
theorem witness_EveryChecksumBitIsChecked :
    (∃ t, exec .chunkParse (withInput hiFrame s0) = .next t ∧ t.errCode = 0#32) ∧
    2 = ((withInput hiFrame s0).ibufWord 0).toNat ∧
    ((withInput (hiFrame.take 13 ++ [0xD0]) s0).inLen = (withInput hiFrame s0).inLen ∧
      (∀ i, i < 8 + 2 → (withInput (hiFrame.take 13 ++ [0xD0]) s0).byteAt .ibuf i =
        (withInput hiFrame s0).byteAt .ibuf i) ∧ 0 < 32 ∧
      (withInput (hiFrame.take 13 ++ [0xD0]) s0).ibufWord (8 + 2) =
        (withInput hiFrame s0).ibufWord (8 + 2) ^^^ (1#32 <<< 0)) ∧
    ((withInput (hiFrame.take 10 ++ [0xC7, 0x38, 0x1B, 0xD1]) s0).inLen = (withInput hiFrame s0).inLen ∧
      (∀ i, i < 8 + 2 → (withInput (hiFrame.take 10 ++ [0xC7, 0x38, 0x1B, 0xD1]) s0).byteAt .ibuf i =
        (withInput hiFrame s0).byteAt .ibuf i) ∧ 31 < 32 ∧
      (withInput (hiFrame.take 10 ++ [0xC7, 0x38, 0x1B, 0xD1]) s0).ibufWord (8 + 2) =
        (withInput hiFrame s0).ibufWord (8 + 2) ^^^ (1#32 <<< 31)) :=
  ⟨⟨_, rfl, by decide +kernel⟩, by decide +kernel, by decide +kernel, by decide +kernel⟩

/-- A two-byte sequence, the empty payload, and a byte that starts no sequence. -/
theorem witness_ChunkTextCheckTestsThePayload :
    (withChunk ruSt 0#32 [0xC3, 0xA9] s0).cValid = true ∧
    WellFormedUtf8 ((withChunk ruSt 0#32 [0xC3, 0xA9] s0).memRead .dbuf 0 2) ∧
    WellFormedUtf8 ((withChunk ruSt 0#32 [] s0).memRead .dbuf 0 0) ∧
    ¬ WellFormedUtf8 ((withChunk ruSt 0#32 [0xFF] s0).memRead .dbuf 0 1) := by
  have e : (withChunk ruSt 0#32 [0xC3, 0xA9] s0).memRead .dbuf 0 2 = [0xC3#8, 0xA9#8] := by
    decide +kernel
  have f : (withChunk ruSt 0#32 [0xFF] s0).memRead .dbuf 0 1 = [0xFF#8] := by decide +kernel
  refine ⟨rfl, ?_, .nil, ?_⟩
  · rw [e]
    exact .cons [⟨0xC2#8, 0xDF#8⟩, contRange] [0xC3#8, 0xA9#8] [] (by decide) rfl (by decide) .nil
  · rw [f]
    intro h
    exact absurd (wellFormed_row_after_prefix h (k := 0) .nil (by decide)) (by decide +kernel)

theorem witness_Utf8ScanStopsWhereNoRowMatches :
    utf8ValidUpTo (bytes [0x41, 0xE2, 0x82]) < (bytes [0x41, 0xE2, 0x82]).length := by decide +kernel

/-- The longest payload whose frame fits, 52 bytes for IBUF_SIZE = 64. -/
theorem witness_ParseOfSerializeIsTheChunk :
    s0.Idle ∧ s0.ibufSize ≤ Config.maxIbufSize ∧ (∀ k, k < 4 → isAlpha (wordByte ruSt k) = true) ∧
    (List.replicate 52 0x00#8).length + 12 ≤ s0.ibufSize := by
  unfold State.Idle; decide +kernel

/-- Each clause at the ends of its range. -/
theorem witness_BufferReadsReturnTheBytes :
    sHi.Idle ∧ (1 < sHi.ibufSize ∧ sHi.cValid = true ∧ 1 < sHi.cLength.toNat) ∧
    (2 < sHi.ibufSize ∧ sHi.cLength.toNat ≤ 2) ∧ (63 < s0.ibufSize ∧ s0.cValid = false) ∧
    sHi.ibufSize ≤ 64 ∧ (13 < sHi.ibufSize + 12 ∧ 13 < sHi.outLen.toNat) ∧
    (75 < sHi.ibufSize + 12 ∧ sHi.outLen.toNat ≤ 14) ∧ sHi.ibufSize + 12 ≤ 76 := by
  unfold State.Idle; decide

theorem witness_ReadsWhileBusy :
    sBusy.Busy ∧ RegName.outLen ∈ [RegName.errInfo0, .errInfo1, .tBytes, .cLength, .cType, .cCrc, .outLen] ∧
    RegName.cStatus ∈ [RegName.tStatus, .cStatus] ∧ 63 < sBusy.ibufSize ∧ 75 < sBusy.ibufSize + 12 ∧
    RegName.cfgObufSize ∈ [RegName.status, .cmd, .tagIn, .inLen, .cfgIbufSize, .cfgDbufSize, .cfgObufSize] ∧
    0x44 ≤ 0x44 := by
  unfold State.Busy; decide

theorem witness_OnlyAlignedWordsReachRegisters :
    s0.rst = false ∧ (0x06 % 4 ≠ 0 ∨ 0x100 ≤ 0x06 ∨ 32 ≠ 32) ∧ (0x100 % 4 ≠ 0 ∨ 0x100 ≤ 0x100 ∨ 32 ≠ 32) ∧
    (0x04 % 4 ≠ 0 ∨ 0x100 ≤ 0x04 ∨ 8 ≠ 32) ∧ s0.Idle := by
  unfold State.Idle; decide

theorem witness_ReservedAndReadOnlyOffsetsDropWrites :
    sHi.rst = false ∧ (0x44 ≤ 0x44 ∧ 0x44 ≤ 0xFC) ∧ (0x44 ≤ 0xFC ∧ 0xFC ≤ 0xFC) ∧
    (RegName.tBytes ≠ .cmd ∧ RegName.tBytes ≠ .tagIn ∧ RegName.tBytes ≠ .inLen) ∧
    (sBusy.rst = false ∧ sBusy.Inv) ∧
    (RegName.cStatus, 6) ∈ [(RegName.cmd, 0), (.status, 4), (.errCode, 8), (.tStatus, 6), (.cStatus, 6)] := by
  refine ⟨rfl, by decide, by decide, by decide, ⟨rfl, ?_⟩, by decide⟩
  unfold State.Inv State.sizesInv State.statusInv State.tagInv State.chunkInv State.memInv
  decide +kernel

theorem witness_ReadsHaveNoSideEffect :
    (∃ off width view, Access.regRead 0x04 32 .whole = .regRead off width view) ∧
    ∃ sp i, Access.bufRead .ibuf 0 = .bufRead sp i := ⟨⟨_, _, _, rfl⟩, _, _, rfl⟩

theorem witness_ResetRestoresTheResetState :
    (withInputs [.rst true] sBusy).inputs = [.rst true] := by decide

theorem witness_NothingIsPerformedUnderReset : (assertReset sBusy).rst = true := by decide

/-- The least and the greatest size: `RegistersAfterReset`, `ResetMeetsTheInvariant`. -/
theorem witness_sizes :
    (Config.minIbufSize ≤ 12 ∧ 12 ≤ Config.maxIbufSize) ∧
    (Config.minIbufSize ≤ 2147483648 ∧ 2147483648 ≤ Config.maxIbufSize) := by decide +kernel

/-- The invariant holds with a tag, a chunk and a frame, and while a command runs:
`EveryStepKeepsTheInvariant`, `StatusReadsALegalValue`, `RunningCommandCompletes`. -/
theorem witness_Inv :
    sHi.Inv ∧ sBusy.Inv ∧ sBusy.running = some 0x00000005#32 ∧ (∃ t, step sBusy = .next t) := by
  refine ⟨?_, ?_, rfl, _, rfl⟩ <;>
    (unfold State.Inv State.sizesInv State.statusInv State.tagInv State.chunkInv State.memInv; decide +kernel)

theorem witness_FailedCommandKeepsTheState :
    encode (.illegal 0x00000007#32) = .command 0x00000007#32 ∧
    ∃ t, exec (.illegal 0x00000007#32) sHi = .next t ∧ t.errCode ≠ 0#32 := ⟨rfl, _, rfl, by decide⟩

theorem witness_CommandsCompleteWithAProducedCode :
    encode .nop = .command 0#32 ∧ (∃ t, exec .nop sHi = .next t ∧ t.errCode = 0#32) :=
  ⟨rfl, _, rfl, rfl⟩

/-- `ChunkChangesOnlyAsAWhole`, `TagAndFrameChangeOnlyByTheirCommands`, `OnlyTheHostWritesTheInputs`: an
instruction that takes each second case. -/
theorem witness_changes :
    (∃ t, exec .chunkNew (withInput [0x48, 0x69] (withTag ruSt s0)) = .next t ∧ t.cValid = true) ∧
    (∃ t, exec .tagFromBytes { s0 with tagIn := ruSt } = .next t ∧ t.tValid = true) ∧
    (∃ t, exec .chunkSerialize sHi = .next t ∧ t.outLen = 14#32) ∧
    (∃ t, exec (.writeTagIn ruSt) s0 = .next t ∧ t.tagIn = ruSt) ∧
    (∃ t, exec (.writeInLen 0x41#32) s0 = .next t ∧ t.inLen = 0x40#32) ∧
    (∃ t, exec (.writeIbuf 63 0x11#8) s0 = .next t ∧ t.byteAt .ibuf 63 = 0x11#8) :=
  ⟨⟨_, rfl, by decide⟩, ⟨_, rfl, by decide⟩, ⟨_, rfl, by decide⟩, ⟨_, rfl, by decide⟩, ⟨_, rfl, by decide⟩,
    _, rfl, by decide⟩

theorem witness_OnlyAcceptanceStartsACommand :
    encode (.writeCmd 0x00000005#32) = .access (.regWrite 0x00 32 0x00000005#32) ∧
    ∃ t, exec (.writeCmd 0x00000005#32) sHi = .next t ∧ t.running = some 0x00000005#32 := ⟨rfl, _, rfl, rfl⟩

/-- Two states that differ in STATUS, the tag and the chunk, with the same frame in IBUF. -/
theorem witness_CommandsDependOnTheirOperandsOnly :
    operandsAgree .chunkParse (withInput hiFrame sErr) (withInput hiFrame s0) ∧
    (∃ t, exec .chunkParse (withInput hiFrame sErr) = .next t ∧ t.errCode = 0#32) ∧
    ∃ t, exec .chunkParse (withInput hiFrame s0) = .next t :=
  ⟨⟨rfl, fun _ _ => rfl⟩, ⟨_, rfl, by decide +kernel⟩, _, rfl⟩

end Sys2Proof.Tests
end

section
/-! The family `20_memory.md`: which accesses of the REG space are performed (spec/20_memory.md R51). -/

namespace Sys2Proof.Machine

/-- The three kinds of access that are not performed: misaligned, at or above 0x100, of another width. -/
theorem regReached_notPerformed {off width : Nat} (h : off % 4 ≠ 0 ∨ 0x100 ≤ off ∨ width ≠ 32) :
    regReached off width = none :=
  regReached_none (by omega)

/-- A RegRead that reaches no register tells the host 0 and does nothing else. -/
theorem hostRegRead_unreached {s : State} {off width : Nat} (view : View) (hr : s.rst = false)
    (h : regReached off width = none) :
    hostRegRead off width view s = { s with reply := .word 0#32 view } := by
  rw [hostRegRead, regRead_unreached off width hr h]

/-- A RegWrite that reaches no register is dropped, busy or not: OVR is not set. -/
theorem regWrite_unreached {s : State} {off width : Nat} (v : Word)
    (h : regReached off width = none) : regWrite off width v s = s := by
  simp [regWrite, h]

/-- Settles O44: an access that is not performed reaches no register; any other reaches the register at
its offset, read while idle with its value, written in each of the three writable registers. -/
theorem onlyAlignedWordsReachRegisters : Obligations.OnlyAlignedWordsReachRegisters := by
  unfold Obligations.OnlyAlignedWordsReachRegisters
  refine ⟨fun s off width view v hr h => ?_, fun s r view ⟨hr, hb⟩ => ?_, fun s v ⟨hr, hb⟩ => ?_⟩
  · have unreached := regReached_notPerformed h
    exact ⟨hostRegRead_unreached view hr unreached, regWrite_unreached v unreached⟩
  · obtain ⟨aligned, inMap⟩ := r.offset_lt
    exact ⟨aligned, by omega, hostRegRead_defined r view hr (by simp [hb])⟩
  · simp only [performAccess]
    refine ⟨?_, ?_, ?_⟩
    · rw [regWrite_cmd_idle v hr hb, accept_running]
    · rw [regWrite_tagIn_idle v hr hb]
    · rw [regWrite_inLen_idle v hr hb]
      exact clampLen_toNat s v

end Sys2Proof.Machine
end

section
/-! The family `30_encoding.md`: which command a word selects (spec/30_encoding.md R72). -/

namespace Sys2Proof.Machine

/-- The legality test of the decoder is the condition of R72. -/
theorem legalCommandWord_iff_fields (w : Word) :
    legalCommandWord w = true ↔ w.extractLsb 31 8 = 0#24 ∧ w.extractLsb 7 0 ≤ 0x06#8 := by
  simp [legalCommandWord]

/-- The seven commands in the order of their OP (spec/30_encoding.md R71). -/
def commandsByOp : List Instr :=
  [.nop, .tagFromBytes, .tagFromText, .chunkNew, .chunkSerialize, .chunkParse, .chunkTextCheck]

/-- Each of the seven words up to 6 selects the command at its low byte. -/
theorem commandsByOp_ofNat : ∀ n < 7,
    commandsByOp[((BitVec.ofNat 32 n).extractLsb 7 0).toNat]? =
      some (decodeCommand (BitVec.ofNat 32 n)) := by decide

/-- A legal word selects the command whose OP is its low byte. -/
theorem commandsByOp_of_legal {w : Word} (h : legalCommandWord w = true) :
    commandsByOp[(w.extractLsb 7 0).toNat]? = some (decodeCommand w) := by
  have small : w.toNat < 7 := Nat.lt_succ_of_le ((legalCommandWord_iff w).1 h)
  simpa only [BitVec.ofNat_toNat, BitVec.setWidth_eq] using commandsByOp_ofNat w.toNat small

/-- A command row compares the whole word, and its own word selects its instruction. -/
theorem commandRows_select : ∀ row ∈ commandRows,
    row.1 = 0xFFFFFFFF#32 ∧ decodeCommand row.2.1 = row.2.2 := by decide

/-- A word that matches a command row selects that row's instruction: no earlier row takes it. -/
theorem decodeCommand_of_match {w : Word} {row : Word × Word × Instr} (hr : row ∈ commandRows)
    (hm : w &&& row.1 = row.2.1) : decodeCommand w = row.2.2 := by
  obtain ⟨mask, selects⟩ := commandRows_select row hr
  have whole : w = row.2.1 := by
    rw [mask] at hm
    exact BitVec.and_allOnes.symm.trans hm
  rw [whole, selects]

/-- An illegal word's completion records ILLEGAL_COMMAND (spec/43_control.md R154). -/
theorem exec_illegal_errCode (w : Word) (s : State) :
    ∃ t, exec (.illegal w) s = .next t ∧ t.errCode = 0x10#32 :=
  ⟨complete (.raise .illegalCommand w 0#32) s, rfl, by
    rw [complete_raise, raiseError_errCode]; rfl⟩

/-- Settles O8: a legal word is one of the seven OPs and selects the command there; any other matches no
row and completes with ILLEGAL_COMMAND; the rows compare the whole word, so no two take the same one. -/
theorem commandWordSelectsOneCommand : Obligations.CommandWordSelectsOneCommand := by
  unfold Obligations.CommandWordSelectsOneCommand
  intro w
  rw [← legalCommandWord_iff_fields]
  refine ⟨commandsByOp_of_legal, fun illegal => ?_, fun row hr => ?_⟩
  · rw [decodeCommand_illegal (by simpa using illegal)]
    exact ⟨rfl, exec_illegal_errCode w⟩
  · exact ⟨(commandRows_select row hr).1, decodeCommand_of_match hr⟩

end Sys2Proof.Machine
end

section
/-! The family `40_typetag.md`: the flags of a tag, the tag check and T_STATUS (spec/40_typetag.md R91 to
R93, R107). -/

namespace Sys2Proof.Machine

/-- A byte's case bit is the bit of the packed tag 5 above the byte's lowest (spec/40_typetag.md R90). -/
theorem caseBit_wordByte (t : Word) (k : Nat) :
    caseBit (wordByte t k) = t.getLsbD (24 - 8 * k + 5) := by
  simp [caseBit, wordByte]

/-- TagOk in the terms of R92. -/
theorem tagOk_iff (t : Word) :
    tagOk t = true ↔ rsvOk t = true ∧ ∀ k, k < 4 → isAlpha (wordByte t k) = true := by
  rw [tagOk, Bool.and_eq_true, allAlpha_iff]

/-- Settles O19: each flag is the case bit of its byte, and TagOk is RsvOk and four letters. -/
theorem tagFlagsAreCaseBits : Obligations.TagFlagsAreCaseBits := by
  unfold Obligations.TagFlagsAreCaseBits
  intro t
  refine ⟨?_, ?_, ?_, ?_, tagOk_iff t⟩
  · rw [critical, caseBit_wordByte]
  · rw [publicTag, caseBit_wordByte]
  · rw [rsvOk, caseBit_wordByte]
  · rw [safeToCopy, caseBit_wordByte]

/-- Settles O20: the check finds nothing when all four bytes are letters, else the first that is none. -/
theorem tagCheckReportsTheFirstBadByte : Obligations.TagCheckReportsTheFirstBadByte := by
  unfold Obligations.TagCheckReportsTheFirstBadByte
  exact fun t => ⟨(tagCheck_none t).trans (allAlpha_iff t), tagCheck_some t⟩

/-! ### The values of T_STATUS -/

/-- Words below 64 are equal when their bits 5:0 are. -/
theorem word_eq_of_lowBits {x y : Word} (hx : x.toNat < 64) (hy : y.toNat < 64)
    (low : ∀ i < 6, x.getLsbD i = y.getLsbD i) : x = y := by
  have high : ∀ {w : Word} {i : Nat}, w.toNat < 64 → 6 ≤ i → w.getLsbD i = false := by
    intro w i hw hi
    exact Nat.testBit_lt_two_pow (hw.trans_le (Nat.pow_le_pow_right (n := 2) (by decide) hi))
  apply BitVec.eq_of_getLsbD_eq
  intro i _
  by_cases hi : i < 6
  · exact low i hi
  · rw [high hx (by omega), high hy (by omega)]

/-- T_STATUS of a tag of letters has bit 5 equal to bit 3: TagOk is RsvOk there. -/
theorem tagOk_of_allAlpha {t : Word} (h : allAlpha t = true) : tagOk t = rsvOk t := by
  rw [tagOk, h, Bool.and_true]

/-- The letter A of the given case. -/
def caseLetter (lower : Bool) : Byte := if lower then 0x61#8 else 0x41#8

@[simp] theorem isAlpha_caseLetter : ∀ lower, isAlpha (caseLetter lower) = true := by decide

@[simp] theorem caseBit_caseLetter : ∀ lower, caseBit (caseLetter lower) = lower := by decide

/-- A tag of letters with the given flags Critical, Public, RsvOk and SafeToCopy. -/
def tagOfFlags (c p r s : Bool) : Word :=
  be32 (caseLetter !c) (caseLetter !p) (caseLetter !r) (caseLetter s)

section
variable (c p r s : Bool)

@[simp] theorem critical_tagOfFlags : critical (tagOfFlags c p r s) = c := by
  simp [critical, tagOfFlags]

@[simp] theorem publicTag_tagOfFlags : publicTag (tagOfFlags c p r s) = p := by
  simp [publicTag, tagOfFlags]

@[simp] theorem rsvOk_tagOfFlags : rsvOk (tagOfFlags c p r s) = r := by
  simp [rsvOk, tagOfFlags]

@[simp] theorem safeToCopy_tagOfFlags : safeToCopy (tagOfFlags c p r s) = s := by
  simp [safeToCopy, tagOfFlags]

@[simp] theorem allAlpha_tagOfFlags : allAlpha (tagOfFlags c p r s) = true := by
  simp [allAlpha, tagOfFlags]

end

/-- The status word of a constructed tag is one of the 16 values of R107. -/
theorem tagStatusWord_value {t : Word} (h : allAlpha t = true) :
    (tagStatusWord true t).getLsbD 0 = true ∧ (tagStatusWord true t).toNat ≤ 0x3F ∧
      (tagStatusWord true t).getLsbD 5 = (tagStatusWord true t).getLsbD 3 := by
  obtain ⟨b0, -, -, b3, -, b5, lt⟩ := tagStatusWord_bits true t
  exact ⟨b0, by omega, by rw [b5, b3, tagOk_of_allAlpha h]⟩

/-- Each of the 16 values of R107 is the status word of the tag with the flags in its bits 4:1. -/
theorem tagStatusWord_tagOfFlags {x : Word} (odd : x.getLsbD 0 = true) (le : x.toNat ≤ 0x3F)
    (valid : x.getLsbD 5 = x.getLsbD 3) :
    tagStatusWord true
      (tagOfFlags (x.getLsbD 1) (x.getLsbD 2) (x.getLsbD 3) (x.getLsbD 4)) = x := by
  obtain ⟨b0, b1, b2, b3, b4, b5, lt⟩ := tagStatusWord_bits true
    (tagOfFlags (x.getLsbD 1) (x.getLsbD 2) (x.getLsbD 3) (x.getLsbD 4))
  simp only [tagOk_of_allAlpha, allAlpha_tagOfFlags, critical_tagOfFlags, publicTag_tagOfFlags,
    rsvOk_tagOfFlags, safeToCopy_tagOfFlags, Bool.true_and] at b1 b2 b3 b4 b5
  refine word_eq_of_lowBits lt (by omega) fun i hi => ?_
  obtain rfl | rfl | rfl | rfl | rfl | rfl : i = 0 ∨ i = 1 ∨ i = 2 ∨ i = 3 ∨ i = 4 ∨ i = 5 := by
    omega
  · rw [b0, odd]
  · exact b1
  · exact b2
  · exact b3
  · exact b4
  · rw [b5, valid]

/-- Settles O27: T_STATUS is the status word of T_BYTES gated by T_VALID; a tag of letters gives one of
the 16 values, and each value is given by the tag of letters with its flags. -/
theorem tagStatusWordValues : Obligations.TagStatusWordValues := by
  unfold Obligations.TagStatusWordValues
  refine ⟨fun s invalid => ?_, fun s valid => ?_, fun x => ⟨?_, ?_⟩⟩
  · simp [regWord, tagStatusWord, invalid]
  · simp only [regWord, tagStatusWord, valid, if_true]
    rfl
  · rintro ⟨s, letters, valid, rfl⟩
    rw [regWord, valid]
    exact tagStatusWord_value (letters valid)
  · rintro ⟨odd, le, bits⟩
    refine ⟨{ State.reset with
        tBytes := tagOfFlags (x.getLsbD 1) (x.getLsbD 2) (x.getLsbD 3) (x.getLsbD 4)
        tValid := true }, fun _ => ?_, rfl, ?_⟩
    · exact allAlpha_tagOfFlags ..
    · exact tagStatusWord_tagOfFlags odd le bits

end Sys2Proof.Machine
end

section
/-! The family `42_chunk.md`: the chunk changes only as a whole (spec/42_chunk.md R128). -/

namespace Sys2Proof.Machine

/-- The chunk of two states is the same: its three registers, DBUF and C_VALID. -/
def State.sameChunk (s t : State) : Prop :=
  t.cLength = s.cLength ∧ t.cType = s.cType ∧ t.cCrc = s.cCrc ∧ t.dbuf = s.dbuf ∧
    t.cValid = s.cValid

/-- A transaction keeps the chunk. -/
theorem performAccess_sameChunk (a : Access) (s : State) : s.sameChunk (performAccess a s) := by
  obtain ⟨-, -, len, type, crc, valid, -, dbuf, -⟩ := performAccess_keeps a s
  exact ⟨len, type, crc, dbuf, valid⟩

/-- A command that does not finish with a chunk to write keeps the chunk, an error included. -/
theorem complete_sameChunk {r : CmdResult} (s : State)
    (h : ∀ len type crc data, r ≠ .finish (.chunk len type crc data)) :
    s.sameChunk (complete r s) := by
  match r with
  | .raise .. | .finish .nothing | .finish (.tag _) | .finish (.frame ..) =>
    exact ⟨rfl, rfl, rfl, rfl, rfl⟩
  | .finish (.chunk len type crc data) => exact absurd rfl (h len type crc data)

/-- Only CHUNK_NEW and CHUNK_PARSE finish with a chunk to write, whose length is its payload's and whose
checksum is its own. -/
theorem commandResult_chunk {i : Instr} {s : State} {len type crc : Word} {data : List Byte}
    (h : commandResult i s = some (.finish (.chunk len type crc data))) :
    (i = .chunkNew ∨ i = .chunkParse) ∧ len.toNat = data.length ∧ crc = chunkCrc type data := by
  rcases commandResult_finish h with
    ⟨e, -⟩ | ⟨_, e, -⟩ | ⟨isNew, -, e⟩ | ⟨isParse, -, -, e⟩ | ⟨-, -, e⟩
  · cases e
  · cases e
  · cases e
    exact ⟨.inl isNew, (s.memRead_length ..).symm, rfl⟩
  · cases e
    exact ⟨.inr isParse, (s.memRead_length ..).symm, rfl⟩
  · cases e

/-- A chunk written with its own checksum ends the command without an error, and is valid and consistent. -/
theorem complete_chunk_consistent {len type : Word} {data : List Byte} (s : State)
    (h : len.toNat = data.length) :
    ∃ t, complete (.finish (.chunk len type (chunkCrc type data) data)) s = t ∧ t.errCode = 0#32 ∧
      t.cValid = true ∧ t.cCrc = chunkCrc t.cType (t.memRead .dbuf 0 t.cLength.toNat) := by
  obtain ⟨t, rfl, -, htype, hcrc, valid, -, -, payload⟩ :=
    complete_chunk len type (chunkCrc type data) data s h
  exact ⟨_, rfl, (complete_errCode_zero _ s).2 ⟨_, rfl⟩, valid, by rw [hcrc, htype, payload]⟩

/-- Settles O55: a transaction keeps the chunk, and so does a command unless it finishes with a chunk to
write; then it is CHUNK_NEW or CHUNK_PARSE, and the chunk it leaves carries its own checksum. -/
theorem chunkChangesOnlyAsAWhole : Obligations.ChunkChangesOnlyAsAWhole := by
  unfold Obligations.ChunkChangesOnlyAsAWhole
  intro i s t ht
  rcases exec_cases i s with ⟨_, r, -, result, hexec⟩ | ⟨a, -, hexec⟩
  · obtain rfl : complete r s = t := by simpa [hexec] using ht
    by_cases writesChunk : ∃ len type crc data, r = .finish (.chunk len type crc data)
    · obtain ⟨len, type, crc, data, rfl⟩ := writesChunk
      obtain ⟨command, lengths, rfl⟩ := commandResult_chunk result
      obtain ⟨_, rfl, whole⟩ := complete_chunk_consistent (type := type) s lengths
      exact .inr ⟨command, whole⟩
    · exact .inl (complete_sameChunk s (by simpa using writesChunk))
  · obtain rfl : performAccess a s = t := by simpa [hexec] using ht
    exact .inl (performAccess_sameChunk a s)

end Sys2Proof.Machine
end

section
/-! The family `43_control.md`: acceptance of a command, the host writes of the operands, the writes
dropped while BUSY = 1, and the two commands that do no work (spec/43_control.md R150, R153 to R158). -/

namespace Sys2Proof.Machine

/-! ### The host writes -/

section
variable (v : Word) (s : State)

theorem exec_writeCmd : exec (.writeCmd v) s = .next (regWrite RegName.cmd.offset 32 v s) := rfl

theorem exec_writeTagIn : exec (.writeTagIn v) s = .next (regWrite RegName.tagIn.offset 32 v s) := rfl

theorem exec_writeInLen : exec (.writeInLen v) s = .next (regWrite RegName.inLen.offset 32 v s) := rfl

theorem exec_writeIbuf (i : Nat) (b : Byte) :
    exec (.writeIbuf i b) s = .next (bufWrite .ibuf i b s) := rfl

end

/-- While a command runs, a write of each of the three writable registers sets OVR alone. -/
theorem regWrite_busy {s : State} {r : RegName} (v : Word) (busy : s.Busy)
    (writable : r = .cmd ∨ r = .tagIn ∨ r = .inLen) : regWrite r.offset 32 v s = s.setOvr := by
  obtain ⟨hr, hb⟩ := busy
  rcases writable with rfl | rfl | rfl <;> simp [regWrite, hr, hb]

/-- While a command runs, a write of an IBUF byte in range sets OVR alone. -/
theorem bufWrite_ibuf_busy {s : State} {i : Nat} (b : Byte) (busy : s.Busy) (inRange : i < s.ibufSize) :
    bufWrite .ibuf i b s = s.setOvr := by
  obtain ⟨hr, hb⟩ := busy
  simp [bufWrite, hr, hb, Nat.not_le.2 inRange]

/-- A write beyond IBUF is dropped, busy or not: OVR is not set. -/
theorem bufWrite_ibuf_beyond {s : State} {i : Nat} (b : Byte) (beyond : s.ibufSize ≤ i) :
    bufWrite .ibuf i b s = s := by
  simp [bufWrite, beyond]

/-- The host cannot write DBUF or OBUF. -/
theorem bufWrite_readOnly {sp : Buf} (i : Nat) (b : Byte) (s : State) (readOnly : sp ≠ .ibuf) :
    bufWrite sp i b s = s := by
  cases sp with
  | ibuf => exact absurd rfl readOnly
  | dbuf | obuf => simp [bufWrite]

/-- Settles O12: a write that a running command drops sets OVR; one that reaches no writable register or
no byte of IBUF is dropped before BUSY is looked at. -/
theorem writesWhileBusyAreDropped : Obligations.WritesWhileBusyAreDropped := by
  unfold Obligations.WritesWhileBusyAreDropped
  intro s
  refine ⟨fun busy => ⟨fun w => ?_, fun v => ?_, fun v => ?_, fun i b inRange => ?_⟩,
    fun i b beyond => ?_, fun off width v unwritable => ?_, fun i b => ⟨?_, ?_⟩⟩
  · rw [exec_writeCmd, regWrite_busy w busy (.inl rfl), State.setOvr]
  · rw [exec_writeTagIn, regWrite_busy v busy (.inr (.inl rfl)), State.setOvr]
  · rw [exec_writeInLen, regWrite_busy v busy (.inr (.inr rfl)), State.setOvr]
  · rw [exec_writeIbuf, bufWrite_ibuf_busy b busy inRange, State.setOvr]
  · rw [exec_writeIbuf, bufWrite_ibuf_beyond b beyond]
  · exact regWrite_dropped off width v s (.inr unwritable)
  · exact bufWrite_readOnly (sp := .dbuf) i b s (by decide)
  · exact bufWrite_readOnly (sp := .obuf) i b s (by decide)

/-- Settles O13: TAG_IN takes the value from an idle host write and reads back as it. -/
theorem writeTagInStoresTheValue : Obligations.WriteTagInStoresTheValue := by
  unfold Obligations.WriteTagInStoresTheValue
  refine fun v s => ⟨rfl, fun ⟨hr, hb⟩ => ⟨?_, ?_⟩, fun busy => ?_⟩
  · rw [exec_writeTagIn, regWrite_tagIn_idle v hr hb]
  · exact congrArg Host.Outcome.next
      (hostRegRead_defined (s := { s with tagIn := v }) .tagIn .whole hr fun _ => rfl)
  · rw [exec_writeTagIn, regWrite_busy v busy (.inr (.inl rfl)), State.setOvr]

/-- Settles O14: IN_LEN takes the clamped value from an idle host write and reads back as it. -/
theorem writeInLenStoresTheMinimum : Obligations.WriteInLenStoresTheMinimum := by
  unfold Obligations.WriteInLenStoresTheMinimum
  refine fun v s => ⟨rfl, fun ⟨hr, hb⟩ => ⟨s.clampLen v, clampLen_toNat s v, ?_, ?_⟩, fun busy => ?_⟩
  · rw [exec_writeInLen, regWrite_inLen_idle v hr hb]
  · exact congrArg Host.Outcome.next
      (hostRegRead_defined (s := { s with inLen := s.clampLen v }) .inLen .whole hr fun _ => rfl)
  · rw [exec_writeInLen, regWrite_busy v busy (.inr (.inr rfl)), State.setOvr]

/-! ### Acceptance, NOP and illegal words -/

/-- The condition of R154 is that the word is no legal one. -/
theorem legalCommandWord_eq_false_iff_fields (w : Word) :
    legalCommandWord w = false ↔ w.extractLsb 31 8 ≠ 0#24 ∨ 0x07#8 ≤ w.extractLsb 7 0 := by
  have opBeyond : ¬ w.extractLsb 7 0 ≤ 0x06#8 ↔ 0x07#8 ≤ w.extractLsb 7 0 := by
    simp only [BitVec.le_def, BitVec.toNat_ofNat]
    omega
  rw [Bool.eq_false_iff, ne_eq, legalCommandWord_iff_fields, not_and_or, opBeyond]

/-- An idle block accepts the word, whatever it is. -/
theorem exec_writeCmd_idle {s : State} (w : Word) (idle : s.Idle) :
    exec (.writeCmd w) s = .next (s.accept w) := by
  obtain ⟨hr, hb⟩ := idle
  rw [exec_writeCmd, regWrite_cmd_idle w hr hb]

/-- Settles O11: an idle block latches the word; an illegal one then completes with its code. -/
theorem acceptanceLatchesTheCommand : Obligations.AcceptanceLatchesTheCommand := by
  unfold Obligations.AcceptanceLatchesTheCommand
  refine fun w s idle => ⟨rfl, s.accept w, exec_writeCmd_idle w idle, rfl, fun illegal => ?_⟩
  rw [decodeCommand_illegal ((legalCommandWord_eq_false_iff_fields w).2 illegal)]
  exact exec_illegal_errCode w _

/-- A command that finishes with nothing to write leaves OK in the error registers. -/
theorem finishCommand_nothing (s : State) :
    finishCommand .nothing s = s.completedWith 0#32 0#32 0#32 := rfl

/-- A command that raises an error leaves its number and its two words in the error registers. -/
theorem raiseError_eq_completedWith (e : ErrorCode) (x y : Word) (s : State) :
    raiseError e x y s = s.completedWith e.number x y := by
  simp [raiseError, State.completedWith]

theorem exec_nop (s : State) : exec .nop s = .next (s.completedWith 0#32 0#32 0#32) :=
  congrArg Host.Outcome.next (finishCommand_nothing s)

theorem exec_illegal (w : Word) (s : State) :
    exec (.illegal w) s = .next (s.completedWith 0x10#32 w 0#32) :=
  congrArg Host.Outcome.next (raiseError_eq_completedWith .illegalCommand w 0#32 s)

/-- A finished command that no dropped write marked leaves DONE alone in STATUS. -/
theorem toWord_doneAlone : Status.toWord ⟨false, true, false, false⟩ = 0x2#32 := by decide

/-- Settles O17: NOP finishes with nothing to write; issued, its acceptance has cleared OVR. -/
theorem nopCompletes : Obligations.NopCompletes := by
  unfold Obligations.NopCompletes
  refine ⟨rfl, exec_nop, fun s idle => ?_⟩
  exact ⟨_, _, exec_writeCmd_idle _ idle, exec_nop _, rfl, toWord_doneAlone⟩

/-- Settles O18: the word of R154 is no legal one, so it decodes to ILLEGAL and raises its error. -/
theorem illegalWordCompletesWithTheWord : Obligations.IllegalWordCompletesWithTheWord := by
  unfold Obligations.IllegalWordCompletesWithTheWord
  intro w s illegal
  refine ⟨?_, exec_illegal w s⟩
  rw [decode, decodeCommand_illegal ((legalCommandWord_eq_false_iff_fields w).2 illegal)]

end Sys2Proof.Machine
end

section
/-! The family `60_exceptions.md`: a command that ends with an error (spec/60_exceptions.md R173). -/

namespace Sys2Proof.Machine

/-- An error code other than 0 is left only by a command that raises it. -/
theorem complete_errCode_ne_zero {r : CmdResult} {s : State} (h : (complete r s).errCode ≠ 0#32) :
    ∃ e x y, r = .raise e x y := by
  cases r with
  | finish ws => exact absurd ((complete_errCode_zero _ s).2 ⟨ws, rfl⟩) h
  | raise e x y => exact ⟨e, x, y, rfl⟩

/-- Settles O53: a command that leaves an error code has raised an error, and raising one records it in
STATUS and the error registers alone and frees the engine. -/
theorem failedCommandKeepsTheState : Obligations.FailedCommandKeepsTheState := by
  unfold Obligations.FailedCommandKeepsTheState
  intro i w s t command ht failed
  obtain ⟨r, -, hexec⟩ := exec_command command s
  obtain rfl : complete r s = t := by simpa [hexec] using ht
  obtain ⟨e, x, y, rfl⟩ := complete_errCode_ne_zero failed
  rw [complete_raise]
  rfl

end Sys2Proof.Machine
end

section
/-! The encodings, and which instruction or transaction a step runs (spec/30_encoding.md R71 to R79;
spec/20_memory.md R62). -/

namespace Sys2Proof.Machine

/-! ### The decoder and the encoder -/

/-- A well-formed instruction is read back from its own encoding. -/
theorem decode_encode {i : Instr} (h : i.wf = true) : decode (encode i) = .ok i := by
  cases i with
  | illegal w => exact Laws.DecodesBack.illegal w h
  | frameRead k => exact Laws.DecodesBack.frameRead k h
  | _ => rfl

/-- What a command word selects is well-formed: one of the seven commands, or ILLEGAL of a word that is
none of theirs. -/
theorem decodeCommand_wf (w : Word) : (decodeCommand w).wf = true := by
  have commands_wf : ∀ i ∈ commandsByOp, i.wf = true := by decide
  cases legal : legalCommandWord w with
  | false => simp [decodeCommand_illegal legal, Instr.wf, legal]
  | true => exact commands_wf _ (List.mem_of_getElem? (commandsByOp_of_legal legal))

/-- ILLEGAL alone can be ill-formed, and it is no transaction. -/
theorem wf_of_encode_access {i : Instr} {a : Access} (h : encode i = .access a) : i.wf = true := by
  cases i with
  | illegal w => cases h
  | _ => rfl

/-- What is decoded encodes to what was read. -/
theorem encode_of_decode {c : Code} {i : Instr} (h : decode c = .ok i) : encode i = c := by
  cases c with
  | command w => cases h; exact encode_decodeCommand w
  | access a => exact encode_of_decodeAccess h

/-- What is decoded is well-formed. -/
theorem wf_of_decode {c : Code} {i : Instr} (h : decode c = .ok i) : i.wf = true := by
  cases c with
  | command w => cases h; exact decodeCommand_wf w
  | access a => exact wf_of_encode_access (encode_of_decodeAccess h)

/-- Settles O7: each constructor's encoding decodes to it, and each table's rows decode to a well-formed
instruction that encodes to them. -/
theorem decodeAndEncodeAreInverse : Obligations.DecodeAndEncodeAreInverse := by
  unfold Obligations.DecodeAndEncodeAreInverse
  exact ⟨fun _ => decode_encode, fun _ _ h => ⟨encode_of_decode h, wf_of_decode h⟩⟩

/-- Settles O6: each encoding is looked up in its table. -/
theorem specEncodingsDecode : Obligations.SpecEncodingsDecode := by
  unfold Obligations.SpecEncodingsDecode
  decide

/-! ### What a step runs -/

/-- A step whose turn is a command runs the command its word selects. -/
theorem step_of_command {s t : State} {w : Word} (h : nextTurn s = .command w t) :
    step s = exec (decodeCommand w) t := by
  rw [step, h]

/-- A step whose turn is a transaction that is a row of the table runs the row. -/
theorem step_of_row {s t : State} {a : Access} {i : Instr} (h : nextTurn s = .access a t)
    (hd : decodeAccess a = .ok i) : step s = exec i t := by
  simp only [step, h, hd]

/-- A step whose turn is a transaction that is no row performs it. -/
theorem step_of_untabled {s t : State} {a : Access} {why : Untabled} (h : nextTurn s = .access a t)
    (hd : decodeAccess a = .error why) : step s = .next (performAccess a t) := by
  simp only [step, h, hd]

/-- A step that settles leaves what its turn has done already. -/
theorem step_of_settled {s t : State} (h : nextTurn s = .settled t) : step s = .next t := by
  rw [step, h]

section
variable {s : State} {rest : List Input}

theorem nextTurn_nil (h : s.inputs = []) : nextTurn s = engineTurn s := by
  simp only [nextTurn, h]

theorem nextTurn_engine (h : s.inputs = .engine :: rest) :
    nextTurn s = engineTurn { s with inputs := rest } := by
  simp only [nextTurn, h]

theorem nextTurn_access {a : Access} (h : s.inputs = .access a :: rest) :
    nextTurn s = .access a { s with inputs := rest } := by
  simp only [nextTurn, h]

theorem nextTurn_wait {polls : Nat} (h : s.inputs = .wait polls :: rest) :
    nextTurn s = waitTurn polls rest s := by
  simp only [nextTurn, h]

theorem nextTurn_rst {level : Bool} (h : s.inputs = .rst level :: rest) :
    nextTurn s = .settled (setReset level { s with inputs := rest }) := by
  simp only [nextTurn, h]

theorem engineTurn_running {w : Word} (h : s.running = some w) : engineTurn s = .command w s := by
  simp only [engineTurn, h]

theorem engineTurn_idle (h : s.running = none) : engineTurn s = .settled s := by
  simp only [engineTurn, h]

theorem waitTurn_running {w : Word} (h : s.running = some w) : waitTurn 0 rest s = .command w s := by
  simp only [waitTurn, h]

/-- A WAIT polls while it has polls left to find BUSY = 1, or nothing runs. -/
theorem waitTurn_polls {polls : Nat} (h : s.running = none ∨ 0 < polls) :
    waitTurn polls rest s = .settled (pollStatus polls { s with inputs := rest }) := by
  rcases h with nothing | left
  · cases polls <;> simp only [waitTurn, nothing]
  · cases polls with
    | zero => omega
    | succ n => rfl

end

/-- Settles O1: the turn is the transaction that has arrived, and the step runs its row. -/
theorem stepRunsDecodedTransaction : Obligations.StepRunsDecodedTransaction := by
  unfold Obligations.StepRunsDecodedTransaction
  exact fun _ _ _ _ arrived row => step_of_row (nextTurn_access arrived) row

/-- Settles O2: the turn is the transaction that has arrived, and the step performs it. -/
theorem stepPerformsUntabledTransaction : Obligations.StepPerformsUntabledTransaction := by
  unfold Obligations.StepPerformsUntabledTransaction
  exact fun _ _ _ _ arrived noRow => step_of_untabled (nextTurn_access arrived) noRow

/-- Settles O3: each of the three turns of the engine is the running command's. -/
theorem stepCompletesTheRunningCommand : Obligations.StepCompletesTheRunningCommand := by
  unfold Obligations.StepCompletesTheRunningCommand
  refine fun s w running => ⟨fun rest arrived => ?_, fun empty => ?_, fun rest arrived => ?_⟩
  · exact step_of_command ((nextTurn_engine arrived).trans (engineTurn_running running))
  · exact step_of_command ((nextTurn_nil empty).trans (engineTurn_running running))
  · exact step_of_command ((nextTurn_wait arrived).trans (waitTurn_running running))

/-- Settles O4: the engine's turn settles at once when nothing runs. -/
theorem idleEngineChangesNothing : Obligations.IdleEngineChangesNothing := by
  unfold Obligations.IdleEngineChangesNothing
  refine fun s nothing => ⟨fun empty => ?_, fun rest arrived => ?_⟩
  · exact step_of_settled ((nextTurn_nil empty).trans (engineTurn_idle nothing))
  · exact step_of_settled ((nextTurn_engine arrived).trans (engineTurn_idle nothing))

/-- A poll reads STATUS, which is defined outside reset, and the host polls again while the value has
BUSY = 1. -/
theorem pollStatus_defined {s : State} (polls : Nat) (rest : List Input) (hr : s.rst = false) :
    pollStatus polls { s with inputs := rest } =
      { s with
        inputs := if s.status.busy then .wait (polls - 1) :: rest else rest
        reply := .word s.status.toWord .whole } := by
  have value : regRead RegName.status.offset 32 { s with inputs := rest } =
      (s.status.toWord, { s with inputs := rest }) := regRead_defined .status hr fun _ => rfl
  rw [pollStatus, hostRegRead, value, s.status.toWord_bits.1]
  cases s.status.busy <;> rfl

/-- Settles O5: the turn is a poll, whose value of STATUS has BUSY in bit 0. -/
theorem waitPollsStatusUntilNotBusy : Obligations.WaitPollsStatusUntilNotBusy := by
  unfold Obligations.WaitPollsStatusUntilNotBusy
  refine fun s polls rest arrived => ⟨fun ⟨hr, hb⟩ nothing => ?_, fun ⟨hr, hb⟩ left => ?_⟩
  · rw [step_of_settled ((nextTurn_wait arrived).trans (waitTurn_polls (.inl nothing))),
      pollStatus_defined polls rest hr, hb, if_neg Bool.false_ne_true]
  · rw [step_of_settled ((nextTurn_wait arrived).trans (waitTurn_polls (.inr left))),
      pollStatus_defined polls rest hr, hb, if_pos rfl]

/-- Settles O9: what an instruction that encodes to a transaction does is the transaction. -/
theorem rowsActAsTheirTransactions : Obligations.RowsActAsTheirTransactions := by
  unfold Obligations.RowsActAsTheirTransactions
  exact fun _ _ s h => exec_access h s

/-- Settles O10: a completion, a transaction and a settled step each answer a next state. -/
theorem everyStepAnswersNext : Obligations.EveryStepAnswersNext := by
  unfold Obligations.EveryStepAnswersNext
  intro s
  rcases step_cases s with ⟨_, _, _, -, h, -⟩ | ⟨_, _, -, h⟩ | ⟨_, -, h⟩ <;> exact ⟨_, h⟩

end Sys2Proof.Machine
end

section
/-! The invariant of the machine: it holds after reset, every step keeps it, and what follows from it
(spec/10_state.md section 7; spec/70_reset_and_hazards.md R202). -/

namespace Sys2Proof.Machine

/-! ### Transactions keep the invariant -/

section
variable {s : State}

/-- The invariant does not speak of what has yet to arrive, of what the host was told, or of the draws. -/
theorem inv_with (h : s.Inv) (l : List Input) (rep : Reply) (d : Nat) :
    State.Inv { s with inputs := l, reply := rep, draws := d } := h

/-- A dropped write needs a running command, and so does OVR. -/
theorem inv_setOvr (h : s.Inv) (busy : s.status.busy = true) : s.setOvr.Inv := by
  obtain ⟨sizes, ⟨run, rst, excl, err, -, code⟩, tag, chunk, mem⟩ := h
  refine ⟨sizes, ⟨run, fun hr => ?_, excl, err, fun _ => .inl busy, code⟩, tag, chunk, mem⟩
  simp [rst hr] at busy

theorem inv_accept (h : s.Inv) (w : Word) (hr : s.rst = false) : (s.accept w).Inv := by
  obtain ⟨sizes, ⟨-, -, -, -, -, code⟩, tag, chunk, mem⟩ := h
  exact ⟨sizes, ⟨rfl, by simp [hr], by simp, by simp, by simp, code⟩, tag, chunk, mem⟩

theorem inv_writeTagIn (h : s.Inv) (v : Word) : State.Inv { s with tagIn := v } := h

theorem inv_writeInLen (h : s.Inv) (v : Word) : State.Inv { s with inLen := s.clampLen v } := by
  obtain ⟨⟨least, greatest, -⟩, status, tag, chunk, mem⟩ := h
  refine ⟨⟨least, greatest, ?_⟩, status, tag, chunk, mem⟩
  exact (clampLen_toNat s v).trans_le (min_le_right _ _)

theorem inv_writeIbuf (h : s.Inv) {i : Nat} (b : Byte) (inRange : i < s.ibufSize) :
    State.Inv { s with ibuf := Memory.write s.ibuf i b } := by
  obtain ⟨sizes, status, tag, chunk, ⟨wf, within, dbuf, obuf, outLen⟩⟩ := h
  refine ⟨sizes, status, tag, chunk, ⟨Memory.wf_write i b wf, fun c hc => ?_, dbuf, obuf, outLen⟩⟩
  rcases Memory.mem_write hc with rfl | hc
  · exact inRange
  · exact within c hc

/-- Every transaction keeps the invariant. -/
theorem inv_performAccess (h : s.Inv) (a : Access) : (performAccess a s).Inv := by
  rcases performAccess_cases a s with ⟨rep, d, e⟩ | ⟨-, busy, e⟩ |
    ⟨hr, -, ⟨w, e⟩ | ⟨v, e⟩ | ⟨v, e⟩ | ⟨i, b, inRange, e⟩⟩ <;> rw [e]
  · exact inv_with h s.inputs rep d
  · exact inv_setOvr h busy
  · exact inv_accept h w hr
  · exact inv_writeTagIn h v
  · exact inv_writeInLen h v
  · exact inv_writeIbuf h b inRange

end

/-! ### Commands keep the invariant -/

/-- A command leaves a produced code: OK, or the number of an error that commands raise. -/
theorem complete_errCode_produced {i : Instr} {s : State} {r : CmdResult}
    (h : commandResult i s = some r) : (complete r s).errCode ∈ producedErrCodes := by
  cases r with
  | finish ws =>
    rw [(complete_errCode_zero _ s).2 ⟨ws, rfl⟩]
    decide
  | raise e x y => exact number_mem_produced (commandResult_raise h)

/-- STATUS and the engine agree after a completion. -/
theorem statusInv_complete {r : CmdResult} {s : State} (hr : s.rst = false)
    (produced : (complete r s).errCode ∈ producedErrCodes) : (complete r s).statusInv := by
  obtain ⟨-, -, -, -, rst, -⟩ := complete_frame r s
  rw [State.statusInv, complete_status, complete_running, rst, hr]
  exact ⟨rfl, by simp, by simp, by simp, fun _ => .inr rfl, produced⟩

/-- The length of a frame fits its register where the payload's is one a buffer may have. -/
theorem frameLength_toNat {len : Word} (fits : len.toNat ≤ Config.maxIbufSize) :
    (12#32 + len).toNat = 12 + len.toNat := by
  simp only [Config.maxIbufSize] at fits
  rw [BitVec.toNat_add, BitVec.toNat_ofNat]
  omega

section
variable {s : State} (h : s.Inv) (hr : s.rst = false)
include h hr

theorem inv_raise {e : ErrorCode} {x y : Word} (produced : e.number ∈ producedErrCodes) :
    (complete (.raise e x y) s).Inv := by
  obtain ⟨sizes, -, tag, chunk, mem⟩ := h
  exact ⟨sizes, statusInv_complete hr produced, tag, chunk, mem⟩

theorem inv_finish_nothing : (complete (.finish .nothing) s).Inv := by
  obtain ⟨sizes, -, tag, chunk, mem⟩ := h
  exact ⟨sizes, statusInv_complete hr (List.mem_cons_self ..), tag, chunk, mem⟩

theorem inv_finish_tag {t : Word} (letters : allAlpha t = true) :
    (complete (.finish (.tag t)) s).Inv := by
  obtain ⟨sizes, -, -, chunk, mem⟩ := h
  exact ⟨sizes, statusInv_complete hr (List.mem_cons_self ..), fun _ => letters, chunk, mem⟩

/-- A chunk that fits, of a tag of letters, with its own checksum. -/
theorem inv_finish_chunk {len type : Word} {data : List Byte} (lengths : len.toNat = data.length)
    (fits : len.toNat ≤ s.ibufSize) (letters : allAlpha type = true) :
    (complete (.finish (.chunk len type (chunkCrc type data) data)) s).Inv := by
  obtain ⟨⟨least, greatest, inLen⟩, -, tag, -, ⟨wf, within, -, obuf, outLen⟩⟩ := h
  have status : (complete (.finish (.chunk len type (chunkCrc type data) data)) s).statusInv :=
    statusInv_complete hr (List.mem_cons_self ..)
  obtain ⟨_, rfl, -, -, crc, valid, -, keys, payload⟩ :=
    complete_chunk len type (chunkCrc type data) data s lengths
  refine ⟨⟨least, greatest, inLen⟩, status, tag, fun _ => ⟨fits, letters, ?_⟩,
    ⟨wf, within, ?_, obuf, outLen⟩⟩
  · exact crc.trans (congrArg (chunkCrc type) payload.symm)
  · rw [keys, if_pos valid]

/-- The frame of the chunk, which fits OBUF. -/
theorem inv_finish_frame (valid : s.cValid = true) :
    (complete (.finish (.frame (12#32 + s.cLength)
      (frameBytes s.cLength s.cType s.cCrc (s.memRead .dbuf 0 s.cLength.toNat)))) s).Inv := by
  obtain ⟨⟨least, greatest, inLen⟩, -, tag, chunk, ⟨wf, within, dbuf, -, -⟩⟩ := h
  obtain ⟨fits, -, -⟩ := chunk valid
  have outLen := frameLength_toNat (fits.trans greatest)
  refine ⟨⟨least, greatest, inLen⟩, statusInv_complete hr (List.mem_cons_self ..), tag, chunk,
    ⟨wf, within, dbuf, ?_, ?_⟩⟩
  · refine (Memory.ofBytes_keys _).trans (congrArg List.range ?_)
    refine Eq.trans ?_ outLen.symm
    simp only [frameBytes, List.length_append, bytesBE32_length, State.memRead_length]
    omega
  · refine outLen.trans_le ?_
    show 12 + s.cLength.toNat ≤ s.ibufSize + 12
    omega

/-- Every command keeps the invariant. -/
theorem inv_complete {i : Instr} {r : CmdResult} (result : commandResult i s = some r) :
    (complete r s).Inv := by
  cases r with
  | raise e x y => exact inv_raise h hr (complete_errCode_produced result)
  | finish ws =>
    obtain ⟨⟨-, -, inLen⟩, -, tag, -, -⟩ := id h
    rcases commandResult_finish result with ⟨rfl, -⟩ | ⟨t, rfl, -, letters⟩ | ⟨-, valid, rfl⟩ |
      ⟨-, letters, fits, rfl⟩ | ⟨-, valid, rfl⟩
    · exact inv_finish_nothing h hr
    · exact inv_finish_tag h hr letters
    · exact inv_finish_chunk h hr (s.memRead_length ..).symm inLen (tag valid)
    · exact inv_finish_chunk h hr (s.memRead_length ..).symm (by omega) letters
    · exact inv_finish_frame h hr valid

end

/-! ### Reset -/

/-- Reset leaves the state after reset of the block's own size, under reset (spec/70_reset_and_hazards.md
R190). -/
theorem assertReset_eq (s : State) : assertReset s =
    { State.resetWith s.ibufSize with
      rst := true, inputs := s.inputs, reply := s.reply, draws := s.draws, epoch := s.epoch + 1 } := by
  simp [assertReset, State.resetWith, State.ibufSize]

/-- The size a block has after reset, where the parameter fits its register. -/
theorem resetWith_ibufSize {n : Nat} (greatest : n ≤ Config.maxIbufSize) :
    (State.resetWith n).ibufSize = n := by
  simp only [Config.maxIbufSize] at greatest
  exact (BitVec.toNat_ofNat n 32).trans (Nat.mod_eq_of_lt (by omega))

/-- The state after reset meets the invariant, under reset or not. -/
theorem inv_resetWith {n : Nat} (least : Config.minIbufSize ≤ n) (greatest : n ≤ Config.maxIbufSize)
    (level : Bool) (l : List Input) (rep : Reply) (d e : Nat) :
    State.Inv { State.resetWith n with
      rst := level, inputs := l, reply := rep, draws := d, epoch := e } := by
  have size := resetWith_ibufSize greatest
  refine ⟨⟨least.trans_eq size.symm, size.trans_le greatest, Nat.zero_le _⟩, ?_, nofun, nofun,
    ⟨rfl, nofun, rfl, rfl, Nat.zero_le _⟩⟩
  exact ⟨rfl, fun _ => rfl, by simp [State.resetWith], by simp [State.resetWith],
    by simp [State.resetWith], List.mem_cons_self ..⟩

/-- Settles O50: the state after reset meets the invariant. -/
theorem resetMeetsTheInvariant : Obligations.ResetMeetsTheInvariant := by
  unfold Obligations.ResetMeetsTheInvariant
  exact fun n least greatest => inv_resetWith least greatest false [] .none 0 0

/-- A level of the reset pin keeps the invariant. -/
theorem inv_setReset {s : State} (h : s.Inv) (level : Bool) : (setReset level s).Inv := by
  obtain ⟨⟨least, greatest, inLen⟩, ⟨run, -, excl, err, ovr, code⟩, tag, chunk, mem⟩ := h
  cases level with
  | true =>
    rw [setReset, if_pos rfl, assertReset_eq]
    exact inv_resetWith least greatest ..
  | false =>
    exact ⟨⟨least, greatest, inLen⟩, ⟨run, nofun, excl, err, ovr, code⟩, tag, chunk, mem⟩

/-! ### Steps -/

/-- What the next step does: the running command completes, a transaction or a level of the reset pin has
arrived, the host polls, or an idle engine has its turn. -/
theorem nextTurn_cases (s : State) :
    (∃ w l, s.running = some w ∧ nextTurn s = .command w { s with inputs := l }) ∨
    (∃ a rest, s.inputs = .access a :: rest ∧ nextTurn s = .access a { s with inputs := rest }) ∨
    (∃ level rest, s.inputs = .rst level :: rest ∧
      nextTurn s = .settled (setReset level { s with inputs := rest })) ∨
    (∃ polls rest, s.inputs = .wait polls :: rest ∧ (s.running = none ∨ 0 < polls) ∧
      nextTurn s = .settled (pollStatus polls { s with inputs := rest })) ∨
    (s.running = none ∧ ∃ l, nextTurn s = .settled { s with inputs := l }) := by
  have engine : ∀ l, nextTurn s = engineTurn { s with inputs := l } →
      (∃ w l, s.running = some w ∧ nextTurn s = .command w { s with inputs := l }) ∨
      (s.running = none ∧ ∃ l, nextTurn s = .settled { s with inputs := l }) := by
    intro l e
    rcases Option.eq_none_or_eq_some s.running with run | ⟨w, run⟩
    · exact .inr ⟨run, l, e.trans (engineTurn_idle run)⟩
    · exact .inl ⟨w, l, run, e.trans (engineTurn_running run)⟩
  match arrived : s.inputs with
  | [] => exact (engine s.inputs (nextTurn_nil arrived)).imp_right fun h => .inr (.inr (.inr h))
  | .engine :: rest =>
    exact (engine rest (nextTurn_engine arrived)).imp_right fun h => .inr (.inr (.inr h))
  | .access a :: rest => exact .inr (.inl ⟨a, rest, rfl, nextTurn_access arrived⟩)
  | .rst level :: rest => exact .inr (.inr (.inl ⟨level, rest, rfl, nextTurn_rst arrived⟩))
  | .wait polls :: rest =>
    by_cases polling : s.running = none ∨ 0 < polls
    · exact .inr (.inr (.inr (.inl ⟨polls, rest, rfl, polling,
        (nextTurn_wait arrived).trans (waitTurn_polls polling)⟩)))
    · obtain ⟨running, rfl⟩ : s.running ≠ none ∧ polls = 0 := by
        rw [not_or] at polling
        exact ⟨polling.1, by omega⟩
      obtain ⟨w, run⟩ := Option.ne_none_iff_exists'.1 running
      exact .inl ⟨w, s.inputs, run, (nextTurn_wait arrived).trans (waitTurn_running run)⟩

/-- A poll changes nothing of the block. -/
theorem pollStatus_frame (polls : Nat) (s : State) :
    ∃ l rep d, pollStatus polls s = { s with inputs := l, reply := rep, draws := d } := by
  obtain ⟨v, d, h⟩ := hostRegRead_frame RegName.status.offset 32 .whole s
  rw [pollStatus, h]
  split
  · exact ⟨_, _, _, rfl⟩
  · exact ⟨s.inputs, _, _, rfl⟩

/-- A step performs the transaction that has arrived, whether it is a row of the table or not. -/
theorem step_of_access {s t : State} {a : Access} (h : nextTurn s = .access a t) :
    step s = .next (performAccess a t) := by
  cases row : decodeAccess a with
  | ok i => rw [step_of_row h row, exec_access (encode_of_decodeAccess row)]
  | error why => exact step_of_untabled h row

/-- A step whose turn is a command completes it with its result. -/
theorem step_completes {s t : State} {w : Word} (h : nextTurn s = .command w t) :
    ∃ r, commandResult (decodeCommand w) t = some r ∧ step s = .next (complete r t) := by
  rw [step_of_command h]
  exact exec_command (encode_decodeCommand w) t

/-- A command runs only outside reset, with BUSY = 1. -/
theorem busy_of_running {s : State} {w : Word} (h : s.Inv) (run : s.running = some w) :
    s.Busy := by
  obtain ⟨-, ⟨busy, rst, -⟩, -⟩ := h
  have hb : s.status.busy = true := by rw [busy, run]; rfl
  refine ⟨?_, hb⟩
  cases hr : s.rst with
  | false => rfl
  | true => simp [rst hr] at hb

/-- Settles O51: what has arrived is out of the invariant's sight; a completion, a transaction, a level of
the reset pin and a poll each keep the invariant. -/
theorem everyStepKeepsTheInvariant : Obligations.EveryStepKeepsTheInvariant := by
  unfold Obligations.EveryStepKeepsTheInvariant
  intro s t h hstep
  suffices keeps : ∃ u, step s = .next u ∧ u.Inv by
    obtain ⟨u, hu, inv⟩ := keeps
    obtain rfl : u = t := by simpa [hu] using hstep
    exact inv
  have arrive : ∀ l, State.Inv { s with inputs := l } := fun l => inv_with h l s.reply s.draws
  rcases nextTurn_cases s with ⟨w, l, run, turn⟩ | ⟨a, rest, -, turn⟩ | ⟨level, rest, -, turn⟩ |
    ⟨polls, rest, -, -, turn⟩ | ⟨-, l, turn⟩
  · obtain ⟨r, result, completes⟩ := step_completes turn
    exact ⟨_, completes, inv_complete (arrive l) (busy_of_running h run).1 result⟩
  · exact ⟨_, step_of_access turn, inv_performAccess (arrive rest) a⟩
  · exact ⟨_, step_of_settled turn, inv_setReset (arrive rest) level⟩
  · obtain ⟨l, rep, d, poll⟩ := pollStatus_frame polls { s with inputs := rest }
    exact ⟨_, step_of_settled turn, poll ▸ inv_with (arrive rest) l rep d⟩
  · exact ⟨_, step_of_settled turn, arrive l⟩

/-! ### What follows from the invariant -/

/-- The fields of STATUS that exclude each other leave seven values (spec/10_state.md R26). -/
theorem Status.toWord_legal : ∀ busy done err ovr : Bool, ¬ (busy = true ∧ done = true) →
    (err = true → done = true) → (ovr = true → busy = true ∨ done = true) →
    Status.toWord ⟨busy, done, err, ovr⟩ ∈
      [0x0#32, 0x1#32, 0x9#32, 0x2#32, 0x6#32, 0xA#32, 0xE#32] := by
  decide

/-- Settles O52: the invariant's rules on STATUS leave its seven values, and say what ERR means. -/
theorem statusReadsALegalValue : Obligations.StatusReadsALegalValue := by
  unfold Obligations.StatusReadsALegalValue
  rintro s ⟨-, ⟨-, -, excl, err, ovr, -⟩, -⟩
  exact ⟨Status.toWord_legal _ _ _ _ excl (fun e => (err.1 e).1) ovr, err⟩

/-! ### A running command completes -/

/-- A WAIT may take a step for each poll that finds BUSY = 1, and one more. -/
theorem inputCost_wait (polls : Nat) (rest : List Input) :
    inputCost (.wait polls :: rest) = polls + 1 + inputCost rest := rfl

theorem inputCost_access (a : Access) (rest : List Input) :
    inputCost (.access a :: rest) = 1 + inputCost rest := rfl

theorem inputCost_rst (level : Bool) (rest : List Input) :
    inputCost (.rst level :: rest) = 1 + inputCost rest := rfl

/-- A transaction does not end the running command, and takes nothing out of what has yet to arrive. -/
theorem performAccess_busy (a : Access) {s : State} (busy : s.Busy) :
    (performAccess a s).running = s.running ∧ (performAccess a s).inputs = s.inputs := by
  obtain ⟨-, hb⟩ := busy
  rcases performAccess_cases a s with ⟨rep, d, e⟩ | ⟨-, -, e⟩ | ⟨-, idle, -⟩
  · rw [e]; exact ⟨rfl, rfl⟩
  · rw [e]; exact ⟨rfl, rfl⟩
  · simp [hb] at idle

/-- A step of a running command completes it, abandons it, or uses up some of what has yet to arrive while
the command runs on. -/
theorem step_of_running {s : State} {w : Word} (h : s.Inv) (run : s.running = some w) :
    ∃ t, step s = .next t ∧
      (t.running = none ∧ (t.status.done = true ∨ t.rst = true) ∨
        t.running = some w ∧ inputCost t.inputs + 1 ≤ inputCost s.inputs) := by
  have busy := busy_of_running h run
  rcases nextTurn_cases s with ⟨w', l, -, turn⟩ | ⟨a, rest, arrived, turn⟩ |
    ⟨level, rest, arrived, turn⟩ | ⟨polls, rest, arrived, polling, turn⟩ | ⟨nothing, -⟩
  · obtain ⟨r, -, completes⟩ := step_completes turn
    exact ⟨_, completes, .inl ⟨complete_running _ _, .inl (by rw [complete_status])⟩⟩
  · obtain ⟨running, inputs⟩ := performAccess_busy a (s := { s with inputs := rest }) busy
    refine ⟨_, step_of_access turn, .inr ⟨running.trans run, ?_⟩⟩
    rw [inputs, arrived, inputCost_access]
    exact (Nat.add_comm ..).le
  · refine ⟨_, step_of_settled turn, ?_⟩
    cases level with
    | true => exact .inl ⟨rfl, .inr rfl⟩
    | false =>
      refine .inr ⟨run, ?_⟩
      rw [arrived, inputCost_rst]
      exact (Nat.add_comm ..).le
  · rcases polling with nothing | left
    · simp [run] at nothing
    · refine ⟨_, step_of_settled turn, .inr ?_⟩
      rw [pollStatus_defined polls rest busy.1, busy.2, if_pos rfl, arrived, inputCost_wait,
        inputCost_wait]
      exact ⟨run, by omega⟩
  · simp [run] at nothing

/-- Settles O60: by strong induction on what has yet to arrive; each step that does not end the command
uses up some of it. -/
theorem runningCommandCompletes : Obligations.RunningCommandCompletes := by
  unfold Obligations.RunningCommandCompletes
  intro s
  induction cost : inputCost s.inputs using Nat.strong_induction_on generalizing s with
  | _ c ih =>
    intro w h run
    obtain ⟨t, hstep, ⟨ended, how⟩ | ⟨runsOn, less⟩⟩ := step_of_running h run
    · exact ⟨1, t, by omega, core_run_succ hstep 0, ended, how⟩
    · obtain ⟨n, u, bound, hrun, ended⟩ :=
        ih _ (by omega) t rfl w (everyStepKeepsTheInvariant s t h hstep) runsOn
      exact ⟨n + 1, u, by omega, (core_run_succ hstep n).trans hrun, ended⟩

end Sys2Proof.Machine
end

section
/-! The TypeTag unit: the case bit of a letter, the two constructors of a tag and its seven accessors
(spec/40_typetag.md R90 to R96, R100 to R106). -/

namespace Sys2Proof.Machine

/-! ### Letters -/

/-- The two ranges of ASCII letters (spec/00_scope.md R14). -/
theorem isAlpha_iff (b : Byte) : isAlpha b = true ↔
    (0x41 ≤ b.toNat ∧ b.toNat ≤ 0x5A) ∨ (0x61 ≤ b.toNat ∧ b.toNat ≤ 0x7A) := by
  simp [isAlpha, BitVec.le_def]

/-- The case bit as a digit of the byte. -/
theorem caseBit_eq_false_iff (b : Byte) : caseBit b = false ↔ b.toNat / 2 ^ 5 % 2 ≠ 1 := by
  rw [caseBit, BitVec.getLsbD, Nat.testBit_eq_decide_div_mod_eq, decide_eq_false_iff_not]

/-- Settles O21: the upper-case letters lie in 0x41 to 0x5F, the lower-case ones in 0x60 to 0x7F. -/
theorem caseBitOfALetter : Obligations.CaseBitOfALetter := by
  unfold Obligations.CaseBitOfALetter
  refine fun b => ⟨isAlpha_iff b, fun letter => ?_⟩
  rw [isAlpha_iff] at letter
  rw [caseBit_eq_false_iff]
  omega

/-! ### The constructors -/

theorem zextByte_eq_ofNat (b : Byte) : zextByte b = BitVec.ofNat 32 b.toNat :=
  (BitVec.ofNat_toNat ..).symm

/-- A command that raises an error ends with its number and its two words. -/
theorem complete_raise_eq (e : ErrorCode) (x y : Word) (s : State) :
    complete (.raise e x y) s = s.completedWith e.number x y :=
  raiseError_eq_completedWith e x y s

/-- A command that finishes with a tag ends with OK and the tag. -/
theorem complete_tag (t : Word) (s : State) :
    complete (.finish (.tag t)) s =
      { s.completedWith 0#32 0#32 0#32 with tBytes := t, tValid := true } := rfl

/-- Four letters construct the tag (spec/40_typetag.md R95). -/
theorem constructTag_letters {t : Word} (letters : ∀ k, k < 4 → isAlpha (wordByte t k) = true) :
    constructTag t = .finish (.tag t) := by
  rw [constructTag, (tagCheck_none t).2 ((allAlpha_iff t).2 letters)]

/-- The first byte that is no letter is reported (spec/40_typetag.md R93). -/
theorem constructTag_badByte {t : Word} {k : Nat} (hk : k < 4) (bad : isAlpha (wordByte t k) = false)
    (first : ∀ j, j < k → isAlpha (wordByte t j) = true) :
    constructTag t = .raise .badByte (BitVec.ofNat 32 (wordByte t k).toNat) 0#32 := by
  rw [constructTag, (tagCheck_some t _).2 ⟨k, hk, rfl, bad, first⟩]
  exact congrArg (CmdResult.raise .badByte · 0#32) (zextByte_eq_ofNat _)

theorem exec_tagFromBytes (s : State) :
    exec .tagFromBytes s = .next (complete (constructTag s.tagIn) s) := rfl

theorem exec_tagFromText (s : State) :
    exec .tagFromText s = .next (complete (tagFromTextResult s) s) := rfl

/-- Settles O22: the four letters of TAG_IN construct the tag. -/
theorem tagFromBytesConstructs : Obligations.TagFromBytesConstructs := by
  unfold Obligations.TagFromBytesConstructs
  intro s letters
  rw [exec_tagFromBytes, constructTag_letters letters, complete_tag]

/-- Settles O23: the first byte of TAG_IN that is no letter is reported. -/
theorem tagFromBytesReportsBadByte : Obligations.TagFromBytesReportsBadByte := by
  unfold Obligations.TagFromBytesReportsBadByte
  intro s k hk bad first
  rw [exec_tagFromBytes, constructTag_badByte hk bad first, complete_raise_eq]
  rfl

/-- A text of four bytes is packed as the word at index 0 of IBUF. -/
theorem tagFromTextResult_four {s : State} (h : s.inLen = 4#32) :
    tagFromTextResult s = constructTag (s.ibufWord 0) := by
  simp [tagFromTextResult, h, State.ibufWord]

/-- The length of a text is tested before any byte (spec/40_typetag.md R96). -/
theorem tagFromTextResult_badLength {s : State} (h : s.inLen ≠ 4#32) :
    tagFromTextResult s = .raise .badLength s.inLen 0#32 :=
  if_pos fun four => h (BitVec.eq_of_toNat_eq four)

/-- The bytes of the word at index 0 are the bytes of the text. -/
theorem wordByte_text (s : State) {k : Nat} (hk : k < 4) :
    wordByte (s.ibufWord 0) k = s.byteAt .ibuf k := by
  rw [wordByte_ibufWord s hk, Nat.zero_add]

/-- The word at index 0, as the number its four bytes pack to. -/
theorem ibufWord_zero (s : State) : s.ibufWord 0 =
    BitVec.ofNat 32 ((s.byteAt .ibuf 0).toNat * 2 ^ 24 + (s.byteAt .ibuf 1).toNat * 2 ^ 16 +
      (s.byteAt .ibuf 2).toNat * 2 ^ 8 + (s.byteAt .ibuf 3).toNat) := by
  rw [← be32_toNat, BitVec.ofNat_toNat, BitVec.setWidth_eq]
  rfl

/-- Settles O24: the four letters of the text construct the tag they pack to. -/
theorem tagFromTextConstructs : Obligations.TagFromTextConstructs := by
  unfold Obligations.TagFromTextConstructs
  intro s four letters
  rw [exec_tagFromText, tagFromTextResult_four four, constructTag_letters, complete_tag, ibufWord_zero]
  intro k hk
  rw [wordByte_text s hk]
  exact letters k hk

/-- Settles O25: another length is reported before any byte, and of four bytes the first that is no
letter. -/
theorem tagFromTextReportsItsError : Obligations.TagFromTextReportsItsError := by
  unfold Obligations.TagFromTextReportsItsError
  refine fun s => ⟨fun notFour => ?_, fun k four hk bad first => ?_⟩
  · rw [exec_tagFromText, tagFromTextResult_badLength notFour, complete_raise_eq]
    rfl
  · rw [← wordByte_text s hk] at bad ⊢
    rw [exec_tagFromText, tagFromTextResult_four four, constructTag_badByte hk bad, complete_raise_eq]
    · rfl
    · intro j hj
      rw [wordByte_text s (hj.trans hk)]
      exact first j hj

/-! ### The accessors -/

/-- A register read by an idle block gives its value and changes nothing of the block. -/
theorem hostRegRead_idle {s : State} (idle : s.Idle) (r : RegName) (view : View) :
    hostRegRead r.offset 32 view s = { s with reply := .word (regWord r s) view } := by
  obtain ⟨hr, hb⟩ := idle
  exact hostRegRead_defined r view hr (by simp [hb])

/-- An accessor that reads a register gives the host what it takes from the register's value. -/
theorem accessor_value {i : Instr} {s : State} {r : RegName} {view : View} {v : Value} (idle : s.Idle)
    (reads : exec i s = .next (hostRegRead r.offset 32 view s)) (value : view.take (regWord r s) = v) :
    ∃ t, exec i s = .next t ∧ t = { s with reply := t.reply } ∧ t.reply.value = v := by
  rw [reads, hostRegRead_idle idle]
  exact ⟨_, rfl, rfl, value⟩

/-- The character of byte `k` of a word. -/
theorem charOf_wordByte (v : Word) (k : Nat) :
    charOf (wordByte v k) = Char.ofNat (v.toNat / 2 ^ (24 - 8 * k) % 256) := by
  rw [charOf, wordByte_toNat]

/-- A word taken as four characters, position 0 first (spec/40_typetag.md R101). -/
theorem take_text (v : Word) : View.text.take v =
    .text (Char.ofNat (v.toNat / 2 ^ 24)) (Char.ofNat (v.toNat / 2 ^ 16 % 256))
      (Char.ofNat (v.toNat / 2 ^ 8 % 256)) (Char.ofNat (v.toNat % 256)) := by
  have first : v.toNat / 16777216 % 256 = v.toNat / 16777216 := by
    have := v.isLt
    omega
  simp [View.take, charOf_wordByte, first]

/-- The test of the four bytes, one by one. -/
theorem allAlpha_eq (t : Word) : allAlpha t = (isAlpha (wordByte t 0) && isAlpha (wordByte t 1) &&
    isAlpha (wordByte t 2) && isAlpha (wordByte t 3)) := by
  simp [allAlpha, bytesBE32, Bool.and_assoc]

/-- Settles O26: each flag accessor takes its bit of T_STATUS, which is a case bit of T_BYTES gated by
T_VALID. -/
theorem tagAccessorsGiveTheFlags : Obligations.TagAccessorsGiveTheFlags := by
  unfold Obligations.TagAccessorsGiveTheFlags
  intro s idle
  obtain ⟨-, crit, pub, rsv, safe, ok, -⟩ := tagStatusWord_bits s.tValid s.tBytes
  obtain ⟨critBit, pubBit, rsvBit, safeBit, -⟩ := tagFlagsAreCaseBits s.tBytes
  refine ⟨accessor_value (r := .tBytes) (view := .whole) idle rfl rfl,
    accessor_value (r := .tBytes) (view := .text) idle rfl (take_text _),
    accessor_value (r := .tStatus) (view := .bit 1) idle rfl ?_,
    accessor_value (r := .tStatus) (view := .bit 2) idle rfl ?_,
    accessor_value (r := .tStatus) (view := .bit 3) idle rfl ?_,
    accessor_value (r := .tStatus) (view := .bit 4) idle rfl ?_,
    accessor_value (r := .tStatus) (view := .bit 5) idle rfl ?_⟩
  · rw [View.take, regWord, crit, critBit]
  · rw [View.take, regWord, pub, pubBit]
  · rw [View.take, regWord, rsv, rsvBit]
  · rw [View.take, regWord, safe, safeBit]
  · rw [View.take, regWord, ok, tagOk, rsvBit, allAlpha_eq]

end Sys2Proof.Machine
end

section
/-! The CRC-32 unit: worked values, and the table-driven computation (spec/41_crc32.md R111 to R114). -/

namespace Sys2Proof.Machine

/-- Settles O28: the values are computed bit by bit. -/
theorem crcCheckValues : Obligations.CrcCheckValues := by
  unfold Obligations.CrcCheckValues
  decide +kernel

/-- The table of the table-driven computation: the eight bit steps of each byte value. -/
def crcTable : List Word := (List.range 256).map fun k => crcBits 8 (BitVec.ofNat 32 k)

theorem crcTable_length : crcTable.length = 256 := by
  rw [crcTable, List.length_map, List.length_range]

theorem crcTable_getElem? {k : Nat} (h : k < 256) :
    crcTable[k]? = some (crcBits 8 (BitVec.ofNat 32 k)) := by
  rw [crcTable, List.getElem?_map, List.getElem?_range h, Option.map_some]

/-- A byte has no bits above its eight. -/
theorem zextByte_shiftRight (b : Byte) : zextByte b >>> 8 = 0#32 := by
  apply BitVec.eq_of_toNat_eq
  have := b.isLt
  rw [zextByte_eq_ofNat, BitVec.toNat_ushiftRight, BitVec.toNat_ofNat, Nat.shiftRight_eq_div_pow]
  exact Nat.div_eq_of_lt (by omega)

/-- One byte of the table-driven computation: its eight bit steps are a shift and the entry of the low
byte, which is where the byte was added. -/
theorem crcByte_eq_table (c : Word) (b : Byte) : crcByte c b =
    (c >>> 8) ^^^ crcTable.getD ((c ^^^ BitVec.ofNat 32 b.toNat).toNat % 256) 0#32 := by
  rw [List.getD_eq_getElem?_getD, crcTable_getElem? (Nat.mod_lt _ (by decide)), Option.getD_some,
    crcByte, crcBits_eight, BitVec.ushiftRight_xor_distrib, zextByte_shiftRight, BitVec.xor_zero,
    zextByte_eq_ofNat]

/-- Settles O29: byte by byte the table gives the running value of the bit steps. -/
theorem tableDrivenCrcIsTheCrc : Obligations.TableDrivenCrcIsTheCrc := by
  unfold Obligations.TableDrivenCrcIsTheCrc
  refine ⟨crcTable, crcTable_length, fun k => crcTable_getElem?, fun s => ?_⟩
  rw [crc32, funext₂ crcByte_eq_table]

end Sys2Proof.Machine
end

section
/-! The chunk unit: CHUNK_NEW, CHUNK_SERIALIZE, the stages of CHUNK_PARSE, and the round trip through a
frame (spec/42_chunk.md R120 to R122, R126; spec/41_crc32.md R115). -/

namespace Sys2Proof.Machine

/-! ### The commands and their preconditions -/

section
variable (s : State)

theorem exec_chunkNew : exec .chunkNew s = .next (complete (chunkNewResult s) s) := rfl

theorem exec_chunkSerialize : exec .chunkSerialize s = .next (complete (chunkSerializeResult s) s) := rfl

theorem exec_chunkParse : exec .chunkParse s = .next (complete (chunkParseResult s) s) := rfl

theorem exec_chunkTextCheck : exec .chunkTextCheck s = .next (complete (chunkTextCheckResult s) s) := rfl

end

section
variable {s : State}

theorem chunkNewResult_noTag (h : s.tValid = false) :
    chunkNewResult s = .raise .noTag 0#32 0#32 := by
  simp [chunkNewResult, h]

theorem chunkNewResult_tag (h : s.tValid = true) :
    chunkNewResult s = .finish (.chunk s.inLen s.tBytes
      (chunkCrc s.tBytes (s.memRead .ibuf 0 s.inLen.toNat)) (s.memRead .ibuf 0 s.inLen.toNat)) :=
  if_pos h

theorem chunkSerializeResult_noChunk (h : s.cValid = false) :
    chunkSerializeResult s = .raise .noChunk 0#32 0#32 := by
  simp [chunkSerializeResult, h]

theorem chunkSerializeResult_chunk (h : s.cValid = true) :
    chunkSerializeResult s = .finish (.frame (12#32 + s.cLength)
      (frameBytes s.cLength s.cType s.cCrc (s.memRead .dbuf 0 s.cLength.toNat))) :=
  if_pos h

theorem chunkTextCheckResult_noChunk (h : s.cValid = false) :
    chunkTextCheckResult s = .raise .noChunk 0#32 0#32 := by
  simp [chunkTextCheckResult, h]

theorem chunkTextCheckResult_chunk (h : s.cValid = true) :
    chunkTextCheckResult s =
      if utf8ValidUpTo (s.memRead .dbuf 0 s.cLength.toNat) = s.cLength.toNat then .finish .nothing
      else .raise .textDecode (countWord (utf8ValidUpTo (s.memRead .dbuf 0 s.cLength.toNat))) 0#32 := by
  simp [chunkTextCheckResult, h]

end

/-- Settles O30: each command tests its precondition first. -/
theorem missingTagOrChunkIsReported : Obligations.MissingTagOrChunkIsReported := by
  unfold Obligations.MissingTagOrChunkIsReported
  refine fun s => ⟨fun noTag => ?_, fun noChunk => ⟨?_, ?_⟩⟩
  · rw [exec_chunkNew, chunkNewResult_noTag noTag, complete_raise_eq]
    rfl
  · rw [exec_chunkSerialize, chunkSerializeResult_noChunk noChunk, complete_raise_eq]
    rfl
  · rw [exec_chunkTextCheck, chunkTextCheckResult_noChunk noChunk, complete_raise_eq]
    rfl

/-! ### CHUNK_NEW and CHUNK_SERIALIZE -/

/-- A byte of a buffer that lists exactly a sequence. -/
theorem byteAt_ofBytes {t : State} {sp : Buf} {bs : List Byte} {i : Nat} {b : Byte}
    (lists : t.mem sp = Memory.ofBytes bs) (h : bs[i]? = some b) : t.byteAt sp i = b := by
  rw [State.byteAt, lists, Memory.read?_ofBytes, h, Option.getD_some]

/-- Byte `i` of what a command reads from index 0 of a buffer. -/
theorem memRead_zero_getElem? {s : State} {sp : Buf} {n i : Nat} (h : i < n) :
    (s.memRead sp 0 n)[i]? = some (s.byteAt sp i) := by
  rw [State.memRead_getElem? _ _ _ _ _ h, Nat.zero_add]

/-- Settles O31: CHUNK_NEW finishes with the chunk of T_BYTES and IBUF[0..IN_LEN). -/
theorem chunkNewBuildsTheChunk : Obligations.ChunkNewBuildsTheChunk := by
  unfold Obligations.ChunkNewBuildsTheChunk
  intro s valid
  rw [exec_chunkNew, chunkNewResult_tag valid]
  exact ⟨_, rfl, rfl, fun i hi => byteAt_ofBytes rfl (memRead_zero_getElem? hi), rfl⟩

theorem bytesBE32_getElem? (v : Word) {k : Nat} (h : k < 4) :
    (bytesBE32 v)[k]? = some (wordByte v k) := by
  obtain rfl | rfl | rfl | rfl : k = 0 ∨ k = 1 ∨ k = 2 ∨ k = 3 := by omega
  all_goals rfl

section
variable (len type crc : Word) (data : List Byte)

theorem frameBytes_length : (frameBytes len type crc data).length = 12 + data.length := by
  simp only [frameBytes, List.length_append, bytesBE32_length]
  omega

/-- The four parts of a frame, each at its index (spec/30_encoding.md R75). -/
theorem frameBytes_getElem?_len {k : Nat} (h : k < 4) :
    (frameBytes len type crc data)[k]? = some (wordByte len k) := by
  rw [frameBytes, List.append_assoc, List.append_assoc, List.getElem?_append_left h,
    bytesBE32_getElem? len h]

theorem frameBytes_getElem?_type {k : Nat} (h : k < 4) :
    (frameBytes len type crc data)[4 + k]? = some (wordByte type k) := by
  rw [frameBytes, List.append_assoc, List.append_assoc,
    List.getElem?_append_right (show (bytesBE32 len).length ≤ 4 + k from Nat.le_add_right ..),
    bytesBE32_length, Nat.add_sub_cancel_left,
    List.getElem?_append_left h, bytesBE32_getElem? type h]

theorem frameBytes_getElem?_data {i : Nat} (h : i < data.length) :
    (frameBytes len type crc data)[8 + i]? = data[i]? := by
  have header : (bytesBE32 len ++ bytesBE32 type).length = 8 := rfl
  rw [frameBytes, List.append_assoc, List.getElem?_append_right (header ▸ Nat.le_add_right ..), header,
    Nat.add_sub_cancel_left, List.getElem?_append_left h]

theorem frameBytes_getElem?_crc {k : Nat} (h : k < 4) :
    (frameBytes len type crc data)[8 + data.length + k]? = some (wordByte crc k) := by
  have before : (bytesBE32 len ++ bytesBE32 type ++ data).length = 8 + data.length := by
    rw [List.length_append]
    rfl
  rw [frameBytes, List.getElem?_append_right (before ▸ Nat.le_add_right ..), before,
    Nat.add_sub_cancel_left, bytesBE32_getElem? crc h]

end

/-- Settles O32: CHUNK_SERIALIZE finishes with the frame of the chunk, each part at its index. -/
theorem chunkSerializeWritesTheFrame : Obligations.ChunkSerializeWritesTheFrame := by
  unfold Obligations.ChunkSerializeWritesTheFrame
  intro s valid fits
  rw [exec_chunkSerialize, chunkSerializeResult_chunk valid]
  refine ⟨_, rfl, rfl, frameLength_toNat fits, fun k hk => ?_, fun k hk => ?_, fun i hi => ?_,
    fun k hk => ?_⟩
  · exact byteAt_ofBytes rfl (frameBytes_getElem?_len _ _ _ _ hk)
  · exact byteAt_ofBytes rfl (frameBytes_getElem?_type _ _ _ _ hk)
  · refine byteAt_ofBytes rfl ((frameBytes_getElem?_data _ _ _ _ ?_).trans (memRead_zero_getElem? hi))
    rwa [State.memRead_length]
  · refine byteAt_ofBytes rfl ?_
    have := frameBytes_getElem?_crc s.cLength s.cType s.cCrc (s.memRead .dbuf 0 s.cLength.toNat) hk
    rwa [State.memRead_length] at this

/-! ### CHUNK_PARSE -/

section
variable {s : State}

/-! Each stage's outcome from its own condition: the conditions of `chunkParseResult_cases` exclude each
other, so the six other cases contradict it. -/

theorem chunkParseResult_noLength (h : s.inLen.toNat < 4) :
    chunkParseResult s = .raise .readError 0#32 4#32 := by
  have := chunkParseResult_cases s
  grind

theorem chunkParseResult_noTag (h4 : 4 ≤ s.inLen.toNat) (h8 : s.inLen.toNat < 8) :
    chunkParseResult s = .raise .readError 4#32 4#32 := by
  have := chunkParseResult_cases s
  grind

theorem chunkParseResult_badTag {b : Byte} (header : 8 ≤ s.inLen.toNat)
    (bad : tagCheck (s.ibufWord 4) = some b) :
    chunkParseResult s = .raise .invalidChunkType 1#32 (zextByte b) := by
  have := chunkParseResult_cases s
  grind

theorem chunkParseResult_noData (header : 8 ≤ s.inLen.toNat) (tag : tagCheck (s.ibufWord 4) = none)
    (short : s.inLen.toNat < 8 + (s.ibufWord 0).toNat) :
    chunkParseResult s = .raise .readError 8#32 (s.ibufWord 0) := by
  have := chunkParseResult_cases s
  grind

theorem chunkParseResult_noCrc (tag : tagCheck (s.ibufWord 4) = none)
    (data : 8 + (s.ibufWord 0).toNat ≤ s.inLen.toNat)
    (short : s.inLen.toNat < 12 + (s.ibufWord 0).toNat) :
    chunkParseResult s = .raise .readError (countWord (8 + (s.ibufWord 0).toNat)) 4#32 := by
  have := chunkParseResult_cases s
  grind

theorem chunkParseResult_badCrc (tag : tagCheck (s.ibufWord 4) = none)
    (whole : 12 + (s.ibufWord 0).toNat ≤ s.inLen.toNat)
    (bad : s.ibufWord (8 + (s.ibufWord 0).toNat) ≠
      chunkCrc (s.ibufWord 4) (s.memRead .ibuf 8 (s.ibufWord 0).toNat)) :
    chunkParseResult s = .raise .invalidCrc (s.ibufWord (8 + (s.ibufWord 0).toNat))
      (chunkCrc (s.ibufWord 4) (s.memRead .ibuf 8 (s.ibufWord 0).toNat)) := by
  have := chunkParseResult_cases s
  grind

theorem chunkParseResult_valid (tag : tagCheck (s.ibufWord 4) = none)
    (whole : 12 + (s.ibufWord 0).toNat ≤ s.inLen.toNat)
    (crc : s.ibufWord (8 + (s.ibufWord 0).toNat) =
      chunkCrc (s.ibufWord 4) (s.memRead .ibuf 8 (s.ibufWord 0).toNat)) :
    chunkParseResult s = .finish (.chunk (s.ibufWord 0) (s.ibufWord 4)
      (s.ibufWord (8 + (s.ibufWord 0).toNat)) (s.memRead .ibuf 8 (s.ibufWord 0).toNat)) := by
  have := chunkParseResult_cases s
  grind

/-- A parse that commits has passed every stage. -/
theorem chunkParseResult_finish {ws : Writes} (h : chunkParseResult s = .finish ws) :
    tagCheck (s.ibufWord 4) = none ∧ 12 + (s.ibufWord 0).toNat ≤ s.inLen.toNat ∧
      s.ibufWord (8 + (s.ibufWord 0).toNat) =
        chunkCrc (s.ibufWord 4) (s.memRead .ibuf 8 (s.ibufWord 0).toNat) := by
  have := chunkParseResult_cases s
  grind

/-- The checksum of a frame's tag and payload, over the bytes as they stand in IBUF. -/
theorem chunkCrc_ibufWord (s : State) (i : Nat) (data : List Byte) :
    chunkCrc (s.ibufWord i) data = crc32 (s.memRead .ibuf i 4 ++ data) := by
  rw [chunkCrc, bytesBE32_ibufWord]

end

/-- Settles O33: a valid frame passes every stage, whatever follows it. -/
theorem chunkParseCommitsAValidFrame : Obligations.ChunkParseCommitsAValidFrame := by
  unfold Obligations.ChunkParseCommitsAValidFrame
  rintro s _ rfl whole letters crc
  rw [← chunkCrc_ibufWord] at crc
  rw [exec_chunkParse, chunkParseResult_valid ((tagCheck_ibufWord s 4).2 letters) whole crc]
  refine ⟨_, rfl, rfl, fun i hi => byteAt_ofBytes rfl ?_⟩
  exact State.memRead_getElem? _ _ _ _ _ hi

/-- Settles O34: the first read that reaches beyond IN_LEN ends the parse. -/
theorem chunkParseReportsTruncation : Obligations.ChunkParseReportsTruncation := by
  unfold Obligations.ChunkParseReportsTruncation
  rintro s _ _ rfl rfl
  refine ⟨fun h => ?_, fun h4 h8 => ?_, fun header letters short => ?_, fun letters data short => ?_⟩
  · rw [exec_chunkParse, chunkParseResult_noLength h, complete_raise_eq]
    rfl
  · rw [exec_chunkParse, chunkParseResult_noTag h4 h8, complete_raise_eq]
    rfl
  · rw [exec_chunkParse, chunkParseResult_noData header ((tagCheck_ibufWord s 4).2 letters) short,
      complete_raise_eq]
    rfl
  · rw [exec_chunkParse, chunkParseResult_noCrc ((tagCheck_ibufWord s 4).2 letters) data short,
      complete_raise_eq]
    rfl

/-- Settles O35: the tag's first byte that is no letter ends the parse. -/
theorem chunkParseReportsABadTag : Obligations.ChunkParseReportsABadTag := by
  unfold Obligations.ChunkParseReportsABadTag
  intro s k header hk bad first
  have check : tagCheck (s.ibufWord 4) = some (s.byteAt .ibuf (4 + k)) := by
    refine (tagCheck_some _ _).2 ⟨k, hk, (wordByte_ibufWord s hk).symm, ?_, fun j hj => ?_⟩
    · rw [wordByte_ibufWord s hk, bad]
    · rw [wordByte_ibufWord s (hj.trans hk), first j hj]
  rw [exec_chunkParse, chunkParseResult_badTag header check, complete_raise_eq, zextByte_eq_ofNat]
  rfl

/-- Settles O36: a whole frame of letters whose checksum differs fails in the last stage. -/
theorem chunkParseReportsABadCrc : Obligations.ChunkParseReportsABadCrc := by
  unfold Obligations.ChunkParseReportsABadCrc
  rintro s _ _ rfl rfl whole letters bad
  rw [← chunkCrc_ibufWord] at bad ⊢
  rw [exec_chunkParse, chunkParseResult_badCrc ((tagCheck_ibufWord s 4).2 letters) whole bad,
    complete_raise_eq]
  rfl

/-- A word of IBUF depends on its four bytes. -/
theorem ibufWord_congr {s t : State} {i : Nat}
    (h : ∀ k, k < 4 → t.byteAt .ibuf (i + k) = s.byteAt .ibuf (i + k)) : t.ibufWord i = s.ibufWord i := by
  rw [State.ibufWord, State.ibufWord, h 1 (by decide), h 2 (by decide), h 3 (by decide)]
  exact congrArg (be32 · _ _ _) (h 0 (by decide))

/-- What a command reads of a buffer depends on the bytes read. -/
theorem memRead_congr_from {s t : State} {sp : Buf} {i n : Nat}
    (h : ∀ k, k < n → t.byteAt sp (i + k) = s.byteAt sp (i + k)) :
    t.memRead sp i n = s.memRead sp i n :=
  List.map_congr_left fun k hk => h k (List.mem_range.1 hk)

/-- Changing one bit changes the word. -/
theorem xor_bit_ne (x : Word) {k : Nat} (hk : k < 32) : x ^^^ (1#32 <<< k) ≠ x := by
  intro same
  have bit := congrArg (BitVec.getLsbD · k) same
  simp [hk] at bit

/-- Settles O37: the frame with the bit changed differs from one that parses in its checksum field alone,
so the last stage finds the old checksum computed and the changed one provided. -/
theorem everyChecksumBitIsChecked : Obligations.EveryChecksumBitIsChecked := by
  unfold Obligations.EveryChecksumBitIsChecked
  rintro s t s' k _ hk rfl parsed ok sameLen sameBytes flipped
  obtain rfl : complete (chunkParseResult s) s = t := by simpa [exec_chunkParse] using parsed
  obtain ⟨ws, commits⟩ := (complete_errCode_zero _ _).1 ok
  obtain ⟨tag, whole, crc⟩ := chunkParseResult_finish commits
  have len : s'.ibufWord 0 = s.ibufWord 0 := ibufWord_congr fun j hj => sameBytes _ (by omega)
  have type : s'.ibufWord 4 = s.ibufWord 4 := ibufWord_congr fun j hj => sameBytes _ (by omega)
  have data : s'.memRead .ibuf 8 (s.ibufWord 0).toNat = s.memRead .ibuf 8 (s.ibufWord 0).toNat :=
    memRead_congr_from fun j hj => sameBytes _ (by omega)
  have fails := chunkParseResult_badCrc (s := s') (by rw [type, tag])
    (by rw [len, sameLen]; exact whole)
    (by rw [len, type, data, flipped, ← crc]; exact xor_bit_ne _ hk)
  rw [len, type, data, flipped, ← crc] at fails
  rw [exec_chunkParse, fails, complete_raise_eq]
  rfl

/-! ### The round trip -/

section
variable {len type : Word} {data : List Byte}

/-- The stages of CHUNK_PARSE read back what the frame was made of (spec/42_chunk.md R126). -/
theorem parseFrame_frameBytes (lengths : len.toNat = data.length) (letters : allAlpha type = true) :
    parseFrame (frameBytes len type (chunkCrc type data) data) =
      .finish (.chunk len type (chunkCrc type data) data) := by
  generalize hcrc : chunkCrc type data = crc
  generalize hf : frameBytes len type crc data = frame
  have size : frame.length = 12 + data.length := by rw [← hf, frameBytes_length]
  have readLen : be32At frame 0 = len := by
    rw [← hf, frameBytes, List.append_assoc, List.append_assoc]
    exact be32At_bytesBE32 len [] _
  have readType : be32At frame 4 = type := by
    rw [← hf, frameBytes, List.append_assoc]
    exact be32At_bytesBE32 type (bytesBE32 len) _
  have readData : slice frame 8 data.length = data := by
    rw [← hf, slice, frameBytes, List.append_assoc]
    exact List.take_left
  have readCrc : be32At frame (8 + data.length) = crc := by
    have before : (bytesBE32 len ++ bytesBE32 type ++ data).length = 8 + data.length := by
      rw [List.length_append]
      rfl
    rw [← hf, frameBytes, ← before]
    simpa using be32At_bytesBE32 crc (bytesBE32 len ++ bytesBE32 type ++ data) []
  have count : countWord data.length = len := by
    rw [← lengths, countWord, BitVec.ofNat_toNat, BitVec.setWidth_eq]
  unfold parseFrame
  simp only [size, readLen, readType, lengths, readData, readCrc, hcrc, count,
    (tagCheck_none type).2 letters]
  rw [if_neg (by omega), if_neg (by omega), if_neg (by omega), if_neg (by omega), if_neg (by simp)]

end

/-- The block holds the chunk of a tag and a payload: the registers, the checksum and DBUF. -/
def State.holdsChunk (s : State) (type : Word) (data : List Byte) : Prop :=
  s.cValid = true ∧ s.cLength.toNat = data.length ∧ s.cType = type ∧ s.cCrc = chunkCrc type data ∧
    s.memRead .dbuf 0 data.length = data

/-- The block holds the chunk that a command has committed. -/
theorem complete_holdsChunk {len type : Word} {data : List Byte} (s : State)
    (lengths : len.toNat = data.length) :
    (complete (.finish (.chunk len type (chunkCrc type data) data)) s).holdsChunk type data :=
  ⟨rfl, lengths, rfl, rfl, State.memRead_ofBytes rfl⟩

/-- A command that completes outside reset leaves an idle block of the same size. -/
theorem complete_idle (r : CmdResult) {s : State} (hr : s.rst = false) :
    (complete r s).Idle ∧ (complete r s).ibufSize = s.ibufSize := by
  obtain ⟨-, -, size, -, rst, -⟩ := complete_frame r s
  exact ⟨⟨rst.trans hr, by rw [complete_status]⟩, congrArg BitVec.toNat size⟩

section
variable {s : State} {data : List Byte}

/-- CHUNK_NEW of a payload that is loaded into IBUF. -/
theorem exec_chunkNew_loaded (idle : s.Idle) (valid : s.tValid = true)
    (fits : data.length ≤ s.ibufSize) :
    ∃ t, exec .chunkNew (loadIbuf data s) = .next t ∧ t.holdsChunk s.tBytes data ∧ t.Idle ∧
      t.ibufSize = s.ibufSize := by
  obtain ⟨hr, hb⟩ := idle
  obtain ⟨m, n, load, lengths, loaded⟩ := loadIbuf_spec data s hr hb fits
  rw [load, exec_chunkNew, chunkNewResult_tag (s := { s with ibuf := m, inLen := n }) valid, lengths,
    loaded]
  exact ⟨_, rfl, complete_holdsChunk _ lengths, complete_idle _ hr⟩

/-- CHUNK_SERIALIZE of the chunk the block holds leaves its frame in OBUF, and keeps the chunk. -/
theorem exec_chunkSerialize_held {type : Word} (idle : s.Idle) (held : s.holdsChunk type data)
    (fits : data.length ≤ Config.maxIbufSize) :
    ∃ t, exec .chunkSerialize s = .next t ∧
      t.memRead .obuf 0 t.outLen.toNat = frameBytes s.cLength type (chunkCrc type data) data ∧
      t.Idle ∧ t.ibufSize = s.ibufSize := by
  obtain ⟨valid, lengths, rfl, crc, payload⟩ := held
  rw [exec_chunkSerialize, chunkSerializeResult_chunk valid, lengths, payload, crc]
  refine ⟨_, rfl, ?_, complete_idle _ idle.1⟩
  have outLen : (12#32 + s.cLength).toNat =
      (frameBytes s.cLength s.cType (chunkCrc s.cType data) data).length := by
    rw [frameLength_toNat (lengths.trans_le fits), frameBytes_length, lengths]
  exact (congrArg _ outLen).trans (State.memRead_ofBytes rfl)

/-- CHUNK_PARSE of the frame of a chunk that is loaded into IBUF. -/
theorem exec_chunkParse_loaded {len type : Word} (idle : s.Idle) (lengths : len.toNat = data.length)
    (letters : allAlpha type = true) (fits : 12 + data.length ≤ s.ibufSize) :
    ∃ t, exec .chunkParse (loadIbuf (frameBytes len type (chunkCrc type data) data) s) = .next t ∧
      t.errCode = 0#32 ∧ t.holdsChunk type data := by
  obtain ⟨hr, hb⟩ := idle
  obtain ⟨m, n, load, inLen, loaded⟩ :=
    loadIbuf_spec (frameBytes len type (chunkCrc type data) data) s hr hb (by rwa [frameBytes_length])
  rw [load, exec_chunkParse, chunkParseResult, inLen, loaded, parseFrame_frameBytes lengths letters]
  exact ⟨_, rfl, rfl, complete_holdsChunk _ lengths⟩

end

/-- Settles O40: CHUNK_NEW holds the chunk of the tag and the loaded payload, CHUNK_SERIALIZE writes its
frame, and CHUNK_PARSE of the loaded frame holds the chunk of the same tag and payload. -/
theorem parseOfSerializeIsTheChunk : Obligations.ParseOfSerializeIsTheChunk := by
  unfold Obligations.ParseOfSerializeIsTheChunk
  rintro s tag d ⟨hr, hb⟩ small letters fits
  have written : exec (.writeTagIn tag) s = .next { s with tagIn := tag } := by
    rw [exec_writeTagIn, regWrite_tagIn_idle tag hr hb]
  have constructed := tagFromBytesConstructs { s with tagIn := tag } letters
  obtain ⟨s3, new, held, idle3, (size3 : s3.ibufSize = s.ibufSize)⟩ := exec_chunkNew_loaded (data := d)
    (s := { State.completedWith 0#32 0#32 0#32 { s with tagIn := tag } with
      tBytes := tag, tValid := true }) ⟨hr, rfl⟩ rfl (by show d.length ≤ s.ibufSize; omega)
  obtain ⟨s4, serialized, frame, idle4, size4⟩ := exec_chunkSerialize_held idle3 held (by omega)
  obtain ⟨-, length, type, crc, payload⟩ := held
  obtain ⟨s5, parsed, ok, valid5, length5, type5, crc5, payload5⟩ :=
    exec_chunkParse_loaded idle4 length ((allAlpha_iff tag).2 letters) (by omega)
  refine ⟨_, _, s3, s4, s5, written, constructed, new, serialized, by rw [frame]; exact parsed, ok, length,
    type, payload, valid5, BitVec.eq_of_toNat_eq (length5.trans length.symm), type5.trans type.symm,
    crc5.trans crc.symm, payload5⟩

/-! ### CHUNK_TEXT_CHECK -/

/-- Settles O39: the scan stops past well-formed bytes at which no row matches or the payload ends; in
a well-formed payload a row matches where any fewer well-formed bytes end. -/
theorem utf8ScanStopsWhereNoRowMatches : Obligations.Utf8ScanStopsWhereNoRowMatches := by
  unfold Obligations.Utf8ScanStopsWhereNoRowMatches
  intro d
  obtain ⟨k, stops, le, startWf, noRow⟩ := utf8Scan_spec d.length 0 d le_rfl
  obtain rfl : utf8ValidUpTo d = k := stops.trans (Nat.zero_add k)
  refine ⟨le, startWf, noRow, fun atEnd => ?_, fun wellFormed => ?_⟩
  · rwa [atEnd, List.take_length] at startWf
  · by_contra early
    have short : utf8ValidUpTo d < d.length := by omega
    obtain ⟨row, hrow, matching⟩ := wellFormed_row_after_prefix wellFormed startWf short
    simp [noRow short row hrow] at matching

/-- Settles O38: the scan reaches the end of the payload exactly when it is well-formed. -/
theorem chunkTextCheckTestsThePayload : Obligations.ChunkTextCheckTestsThePayload := by
  unfold Obligations.ChunkTextCheckTestsThePayload
  rintro s _ valid rfl
  obtain ⟨-, -, -, atEnd⟩ := utf8ScanStopsWhereNoRowMatches (s.memRead .dbuf 0 s.cLength.toNat)
  rw [State.memRead_length] at atEnd
  rw [← atEnd, exec_chunkTextCheck, chunkTextCheckResult_chunk valid]
  refine ⟨fun wellFormed => ?_, fun illFormed => ?_⟩
  · rw [if_pos wellFormed]
    rfl
  · rw [if_neg illFormed, complete_raise_eq]
    rfl

end Sys2Proof.Machine
end

section
/-! Reads of the registers and the buffers, idle and busy, and the host's writes of IBUF
(spec/10_state.md R42; spec/20_memory.md R52, R53, R59, R65; spec/43_control.md R159;
spec/70_reset_and_hazards.md R196). -/

namespace Sys2Proof.Machine

/-! ### Register reads -/

/-- Settles O41: each accessor is an idle read of its register. -/
theorem registerReadsReturnTheRegister : Obligations.RegisterReadsReturnTheRegister := by
  unfold Obligations.RegisterReadsReturnTheRegister
  intro s idle
  have reads (r : RegName) : Host.Outcome.next (hostRegRead r.offset 32 .whole s) =
      (.next { s with reply := .word (regWord r s) .whole } : Host.Outcome State Fault Refusal) :=
    congrArg _ (hostRegRead_idle idle r .whole)
  exact ⟨reads .cLength, reads .cType, reads .cCrc, reads .cStatus, reads .outLen, reads .status,
    reads .errCode, reads .errInfo0, reads .errInfo1, reads .cfgIbufSize, reads .cfgDbufSize,
    reads .cfgObufSize, reads .tagIn, reads .inLen⟩

/-- A register that a command may be writing reads free in its fields, its reserved bits 0. -/
theorem hostRegRead_free {s : State} {r : RegName} (view : View) (busy : s.Busy)
    (free : r.undefinedWhileBusy = true) :
    hostRegRead r.offset 32 view s =
      { s with
        reply := .word (Config.freeWord s.draws &&& r.fieldMask) view
        draws := s.draws + 1 } := by
  obtain ⟨hr, hb⟩ := busy
  rw [hostRegRead, regRead_free r hr hb free]
  rfl

/-! ### Buffer reads -/

section
variable {s : State} {sp : Buf} {i : Nat}

/-- A buffer read that is defined tells the host the byte and does nothing else. -/
theorem hostBufRead_of_value {b : Byte} (h : bufRead sp i s = (b, s)) :
    hostBufRead sp i s = { s with reply := .byte b } := by
  rw [hostBufRead, h]

/-- A buffer read that is not defined tells the host the next free byte. -/
theorem hostBufRead_of_draw (h : bufRead sp i s = s.drawByte) :
    hostBufRead sp i s =
      { s with reply := .byte (Config.freeByte s.draws), draws := s.draws + 1 } := by
  rw [hostBufRead, h]
  rfl

/-- Beyond a buffer every byte reads 0 (spec/20_memory.md R52, R53). -/
theorem bufRead_beyond (hr : s.rst = false) (beyond : s.bufSize sp ≤ i) :
    bufRead sp i s = (0#8, s) := by
  simp [bufRead, hr, beyond]

/-- The bytes of IBUF are defined, busy or not (spec/20_memory.md R52). -/
theorem bufRead_ibuf (hr : s.rst = false) (inRange : i < s.ibufSize) :
    bufRead .ibuf i s = (s.byteAt .ibuf i, s) := by
  simp [bufRead, hr, State.bufSize, Nat.not_le.2 inRange]

/-- While a command runs no byte of DBUF or OBUF is defined (spec/70_reset_and_hazards.md R196). -/
theorem bufRead_busy (busy : s.Busy) (inRange : i < s.bufSize sp) (output : sp ≠ .ibuf) :
    bufRead sp i s = s.drawByte := by
  obtain ⟨hr, hb⟩ := busy
  cases sp with
  | ibuf => exact absurd rfl output
  | dbuf | obuf => simp [bufRead, hr, hb, Nat.not_le.2 inRange]

/-- The bytes of DBUF that are defined are the chunk's payload (spec/42_chunk.md R137). -/
theorem bufRead_dbuf_idle (idle : s.Idle) (inRange : i < s.ibufSize) :
    bufRead .dbuf i s =
      if s.cValid = true ∧ i < s.cLength.toNat then (s.byteAt .dbuf i, s) else s.drawByte := by
  obtain ⟨hr, hb⟩ := idle
  simp [bufRead, hr, hb, State.bufSize, Nat.not_le.2 inRange]

/-- The bytes of OBUF that are defined are the last frame (spec/42_chunk.md R140). -/
theorem bufRead_obuf_idle (idle : s.Idle) (inRange : i < s.ibufSize + 12) :
    bufRead .obuf i s = if i < s.outLen.toNat then (s.byteAt .obuf i, s) else s.drawByte := by
  obtain ⟨hr, hb⟩ := idle
  simp [bufRead, hr, hb, State.bufSize, Nat.not_le.2 inRange]

theorem exec_chunkData : exec (.chunkData i) s = .next (hostBufRead .dbuf i s) := rfl

theorem exec_frameRead_byte : exec (.frameRead (some i)) s = .next (hostBufRead .obuf i s) := rfl

end

/-- Settles O42: an idle read is the byte below the length, a draw up to the buffer's end, and 0 beyond
it. -/
theorem bufferReadsReturnTheBytes : Obligations.BufferReadsReturnTheBytes := by
  unfold Obligations.BufferReadsReturnTheBytes
  refine fun s i idle => ⟨fun inRange valid below => ?_, fun inRange above => ?_, fun beyond => ?_,
    fun inRange below => ?_, fun inRange above => ?_, fun beyond => ?_⟩
  · rw [exec_chunkData, hostBufRead_of_value ((bufRead_dbuf_idle idle inRange).trans
      (if_pos ⟨valid, below⟩))]
  · have undefined : ¬ (s.cValid = true ∧ i < s.cLength.toNat) := by
      rintro ⟨valid, below⟩
      rcases above with invalid | above
      · simp [valid] at invalid
      · omega
    rw [exec_chunkData, hostBufRead_of_draw ((bufRead_dbuf_idle idle inRange).trans
      (if_neg undefined))]
  · rw [exec_chunkData, hostBufRead_of_value (bufRead_beyond (sp := .dbuf) idle.1 beyond)]
  · rw [exec_frameRead_byte, hostBufRead_of_value ((bufRead_obuf_idle idle inRange).trans
      (if_pos below))]
  · rw [exec_frameRead_byte, hostBufRead_of_draw ((bufRead_obuf_idle idle inRange).trans
      (if_neg (by omega)))]
  · rw [exec_frameRead_byte, hostBufRead_of_value (bufRead_beyond (sp := .obuf) idle.1 beyond)]

/-- Settles O43: the result registers and the bytes of DBUF and OBUF are drawn, a register with reserved
bits only in its fields; every other read is defined busy or not. -/
theorem readsWhileBusy : Obligations.ReadsWhileBusy := by
  unfold Obligations.ReadsWhileBusy
  have whole : ∀ r ∈ [RegName.errInfo0, .errInfo1, .tBytes, .cLength, .cType, .cCrc, .outLen],
      r.undefinedWhileBusy = true ∧ r.fieldMask = 0xFFFFFFFF#32 := by decide
  have flags : ∀ r ∈ [RegName.tStatus, .cStatus],
      r.undefinedWhileBusy = true ∧ r.fieldMask = 0x3F#32 := by decide
  have defined : ∀ r ∈ [RegName.status, .cmd, .tagIn, .inLen, .cfgIbufSize, .cfgDbufSize, .cfgObufSize],
      r.undefinedWhileBusy = false := by decide
  refine fun s busy => ⟨fun r view hr => ?_, fun view => hostRegRead_free (r := .errCode) view busy rfl,
    fun r view hr => ?_, fun i inRange => ?_, fun i inRange => ?_, fun r view hr => ?_, rfl,
    fun off view reserved => ?_, fun i inRange => ?_⟩
  · obtain ⟨free, mask⟩ := whole r hr
    rw [performAccess, hostRegRead_free view busy free, mask,
      show (0xFFFFFFFF#32 : Word) = BitVec.allOnes 32 from rfl, BitVec.and_allOnes]
  · obtain ⟨free, mask⟩ := flags r hr
    rw [performAccess, hostRegRead_free view busy free, mask]
  · exact hostBufRead_of_draw (bufRead_busy busy inRange (by decide))
  · exact hostBufRead_of_draw (bufRead_busy busy inRange (by decide))
  · exact hostRegRead_defined r view busy.1 fun _ => defined r hr
  · exact hostRegRead_unreached view busy.1 (regReached_none (.inr (.inr reserved)))
  · exact hostBufRead_of_value (bufRead_ibuf busy.1 inRange)

/-! ### Reserved offsets and bits -/

/-- No two registers share an offset. -/
theorem RegName.offset_injective {r q : RegName} (h : r.offset = q.offset) : r = q := by
  have reached := regReached_offset r
  rw [h, regReached_offset] at reached
  exact (Option.some.inj reached).symm

/-- A word that a mask leaves as it is lies below the mask's bound. -/
theorem toNat_lt_of_and_eq {x mask : Word} {n : Nat} (h : x &&& mask = x) (bound : mask.toNat < n) :
    x.toNat < n := by
  have le : x.toNat ≤ mask.toNat := by
    rw [← h, BitVec.toNat_and]
    exact Nat.and_le_right
  exact le.trans_lt bound

/-- Settles O45: a reserved offset reaches no register, a read-only register takes no write, and the
value of a register lies under the mask of its fields. -/
theorem reservedAndReadOnlyOffsetsDropWrites : Obligations.ReservedAndReadOnlyOffsetsDropWrites := by
  unfold Obligations.ReservedAndReadOnlyOffsetsDropWrites
  have masks : ∀ p ∈ [(RegName.cmd, 0), (.status, 4), (.errCode, 8), (.tStatus, 6), (.cStatus, 6)],
      p.1.fieldMask.toNat < 2 ^ p.2 := by decide
  refine fun s view v hr => ⟨fun off reserved _ => ?_, fun r notCmd notTagIn notInLen => ?_,
    fun r bits h hmem => ?_⟩
  · have unreached := regReached_none (width := 32) (.inr (.inr reserved))
    exact ⟨hostRegRead_unreached view hr unreached, regWrite_unreached v unreached⟩
  · exact regWrite_dropped _ _ v s (.inr (.inr ⟨fun e => notCmd (RegName.offset_injective e),
      fun e => notTagIn (RegName.offset_injective e), fun e => notInLen (RegName.offset_injective e)⟩))
  · obtain ⟨value, draws, read⟩ := hostRegRead_frame r.offset 32 view s
    obtain rfl : (regRead r.offset 32 s).1 = value := by
      simpa [hostRegRead] using congrArg State.reply read
    exact ⟨_, draws, read, toNat_lt_of_and_eq
      (regRead_reservedZero r hr (errCode_reservedZero h)) (masks _ hmem)⟩

/-! ### No read has a side effect -/

/-- What a read draws is all it does to the state. -/
theorem regRead_state (off width : Nat) (s : State) :
    (regRead off width s).2 = s ∨ (regRead off width s).2 = { s with draws := s.draws + 1 } := by
  rcases regRead_cases off width s with ⟨-, h⟩ | ⟨r, -, -, -, -, h⟩ | ⟨-, -, h⟩ | ⟨r, -, -, -, h⟩
  · exact .inr (congrArg Prod.snd h)
  · exact .inr (congrArg Prod.snd h)
  · exact .inl (congrArg Prod.snd h)
  · exact .inl (congrArg Prod.snd h)

theorem bufRead_state (sp : Buf) (i : Nat) (s : State) :
    (bufRead sp i s).2 = s ∨ (bufRead sp i s).2 = { s with draws := s.draws + 1 } := by
  rcases bufRead_cases sp i s with h | ⟨-, -, h⟩ | ⟨-, -, h⟩
  · exact .inr (congrArg Prod.snd h)
  · exact .inl (congrArg Prod.snd h)
  · exact .inl (congrArg Prod.snd h)

/-- Settles O46: a read of either kind leaves the state, or the state with one more draw, and the reply. -/
theorem readsHaveNoSideEffect : Obligations.ReadsHaveNoSideEffect := by
  unfold Obligations.ReadsHaveNoSideEffect
  rintro s _ (⟨off, width, view, rfl⟩ | ⟨sp, i, rfl⟩)
  · rw [performAccess, hostRegRead]
    rcases regRead_state off width s with e | e <;> rw [e]
    · exact ⟨_, s.draws, rfl, .inl rfl⟩
    · exact ⟨_, s.draws + 1, rfl, .inr rfl⟩
  · rw [performAccess, hostBufRead]
    rcases bufRead_state sp i s with e | e <;> rw [e]
    · exact ⟨_, s.draws, rfl, .inl rfl⟩
    · exact ⟨_, s.draws + 1, rfl, .inr rfl⟩

/-! ### The host's writes of IBUF, and a running command's inputs -/

/-- An idle block stores a byte in range. -/
theorem bufWrite_ibuf_idle {s : State} {i : Nat} (b : Byte) (idle : s.Idle) (inRange : i < s.ibufSize) :
    bufWrite .ibuf i b s = { s with ibuf := Memory.write s.ibuf i b } := by
  obtain ⟨hr, hb⟩ := idle
  simp [bufWrite, hr, hb, Nat.not_le.2 inRange]

/-- Settles O15: the byte is stored in IBUF alone, where every other index reads as before. -/
theorem writeIbufStoresOneByte : Obligations.WriteIbufStoresOneByte := by
  unfold Obligations.WriteIbufStoresOneByte
  refine fun i b s => ⟨rfl, fun beyond => ?_, fun busy inRange => ?_, fun idle inRange => ?_⟩
  · rw [exec_writeIbuf, bufWrite_ibuf_beyond b beyond]
  · rw [exec_writeIbuf, bufWrite_ibuf_busy b busy inRange, State.setOvr]
  · rw [exec_writeIbuf, bufWrite_ibuf_idle b idle inRange]
    have stored : State.byteAt { s with ibuf := Memory.write s.ibuf i b } .ibuf i = b :=
      (byteAt_write s i b i).trans (if_pos rfl)
    have reads := bufRead_ibuf (s := { s with ibuf := Memory.write s.ibuf i b }) idle.1 inRange
    rw [stored] at reads
    exact ⟨_, rfl, rfl, stored, fun j other => (byteAt_write s i b j).trans (if_neg other),
      hostBufRead_of_value reads⟩

/-- Settles O16: of what a transaction can do, an access that changes an input needs an idle block. -/
theorem runningCommandsInputsAreFixed : Obligations.RunningCommandsInputsAreFixed := by
  unfold Obligations.RunningCommandsInputsAreFixed
  rintro a s ⟨-, hb⟩
  rcases performAccess_cases a s with ⟨rep, d, e⟩ | ⟨-, -, e⟩ | ⟨-, idle, -⟩
  · exact ⟨s.status.ovr, rep, d, e, id⟩
  · exact ⟨true, s.reply, s.draws, e, fun _ => rfl⟩
  · simp [hb] at idle

end Sys2Proof.Machine
end

section
/-! Reset, and the registers after it (spec/10_state.md R48; spec/70_reset_and_hazards.md R190, R192). -/

namespace Sys2Proof.Machine

/-- No byte of any buffer is written right after a reset (spec/10_state.md R48). -/
theorem byteAt_of_empty {s : State} {sp : Buf} (empty : s.mem sp = []) (i : Nat) :
    s.byteAt sp i = Config.unwrittenByte s.epoch sp i := by
  rw [State.byteAt, empty, Memory.read?_nil, Option.getD_none]

theorem mem_resetWith (n : Nat) (sp : Buf) : (State.resetWith n).mem sp = [] := by
  cases sp <;> rfl

/-- Settles O47: the step is the level of the pin, which leaves the state after reset. -/
theorem resetRestoresTheResetState : Obligations.ResetRestoresTheResetState := by
  unfold Obligations.ResetRestoresTheResetState
  intro s rest arrived
  refine ⟨_, step_of_settled (nextTurn_rst arrived), assertReset_eq _, fun sp i => ?_⟩
  refine byteAt_of_empty (s := assertReset { s with inputs := rest }) ?_ i
  cases sp <;> rfl

/-! ### Nothing is performed under reset -/

section
variable {s : State} (hr : s.rst = true)
include hr

theorem bufWrite_underReset (sp : Buf) (i : Nat) (b : Byte) : bufWrite sp i b s = s := by
  simp [bufWrite, hr]

theorem bufRead_underReset (sp : Buf) (i : Nat) : bufRead sp i s = s.drawByte := by
  simp [bufRead, hr]

theorem hostRegRead_underReset (off width : Nat) (view : View) :
    hostRegRead off width view s =
      { s with reply := .word (Config.freeWord s.draws) view, draws := s.draws + 1 } := by
  rw [hostRegRead, regRead_underReset off width hr]
  rfl

/-- A transaction under reset draws and replies, and does nothing else. -/
theorem performAccess_underReset (a : Access) :
    ∃ rep d, performAccess a s = { s with reply := rep, draws := d } := by
  rcases performAccess_cases a s with h | ⟨noReset, -⟩ | ⟨noReset, -⟩
  · exact h
  · simp [hr] at noReset
  · simp [hr] at noReset

/-- So do any number of them. -/
theorem foldl_performAccess_underReset (accesses : List Access) :
    ∃ rep d, accesses.foldl (fun t a => performAccess a t) s = { s with reply := rep, draws := d } := by
  induction accesses generalizing s with
  | nil => exact ⟨s.reply, s.draws, rfl⟩
  | cons a rest ih =>
    obtain ⟨rep, d, first⟩ := performAccess_underReset hr a
    rw [List.foldl_cons, first]
    exact ih (s := { s with reply := rep, draws := d }) hr

end

/-- Settles O48: a transaction under reset is dropped or draws, so the block leaves reset as it was right
after reset was asserted. -/
theorem nothingIsPerformedUnderReset : Obligations.NothingIsPerformedUnderReset := by
  unfold Obligations.NothingIsPerformedUnderReset
  refine ⟨fun s hr => ⟨fun off width v => regWrite_dropped off width v s (.inl hr),
    bufWrite_underReset hr, hostRegRead_underReset hr,
    fun sp i => hostBufRead_of_draw (bufRead_underReset hr sp i)⟩, fun s accesses => ?_⟩
  obtain ⟨rep, d, performed⟩ := foldl_performAccess_underReset (assertReset_rst s) accesses
  rw [performed, assertReset_eq]
  exact ⟨rep, d, rfl⟩

/-! ### The registers after reset -/

/-- Every register but the three of the parameter reads 0 after reset. -/
theorem regWord_resetWith {r : RegName} (n : Nat)
    (h : r ∉ [RegName.cfgIbufSize, .cfgDbufSize, .cfgObufSize]) :
    regWord r (State.resetWith n) = 0#32 := by
  cases r with
  | cfgIbufSize | cfgDbufSize | cfgObufSize => simp at h
  | status => exact (by decide : Status.toWord ⟨false, false, false, false⟩ = 0#32)
  | _ => rfl

/-- Settles O49: the three registers of the parameter read its value, every other register 0, and no byte
is written. -/
theorem registersAfterReset : Obligations.RegistersAfterReset := by
  unfold Obligations.RegistersAfterReset
  intro n _ greatest
  have size : (regWord .cfgIbufSize (State.resetWith n)).toNat = n := resetWith_ibufSize greatest
  refine ⟨fun r _ other => regWord_resetWith n other, size, size, ?_, rfl,
    fun sp i => byteAt_of_empty (mem_resetWith n sp) i⟩
  rw [show regWord .cfgObufSize (State.resetWith n) =
      12#32 + regWord .cfgIbufSize (State.resetWith n) from BitVec.add_comm ..,
    frameLength_toNat (size.trans_le greatest), size, Nat.add_comm]

end Sys2Proof.Machine
end

section
/-! What each instruction changes and what a command depends on (spec/10_state.md R34, R40, R45;
spec/42_chunk.md R123, R127; spec/60_exceptions.md R170, R175; spec/70_reset_and_hazards.md R198, R199). -/

namespace Sys2Proof.Machine

/-! ### Commands -/

/-- OK leaves both diagnostic words 0. -/
theorem complete_errInfo_of_ok {r : CmdResult} {s : State} (ok : (complete r s).errCode = 0#32) :
    (complete r s).errInfo0 = 0#32 ∧ (complete r s).errInfo1 = 0#32 := by
  obtain ⟨ws, rfl⟩ := (complete_errCode_zero r s).1 ok
  exact ⟨rfl, rfl⟩

/-- Settles O54: a command completes with its result, whose code is a produced one. -/
theorem commandsCompleteWithAProducedCode : Obligations.CommandsCompleteWithAProducedCode := by
  unfold Obligations.CommandsCompleteWithAProducedCode
  intro i w s command
  obtain ⟨r, result, hexec⟩ := exec_command command s
  exact ⟨_, hexec, complete_running r s, complete_status r s, complete_errCode_produced result,
    complete_errInfo_of_ok⟩

/-- Settles O56: no transaction writes the tag or the frame, and of the commands' writes a tag is written
by the two constructors and a frame by CHUNK_SERIALIZE. -/
theorem tagAndFrameChangeOnlyByTheirCommands : Obligations.TagAndFrameChangeOnlyByTheirCommands := by
  unfold Obligations.TagAndFrameChangeOnlyByTheirCommands
  intro i s t ht
  rcases exec_cases i s with ⟨_, r, -, result, hexec⟩ | ⟨a, -, hexec⟩
  · obtain rfl : complete r s = t := by simpa [hexec] using ht
    cases r with
    | raise e x y => exact ⟨.inl ⟨rfl, rfl⟩, .inl ⟨rfl, rfl⟩⟩
    | finish ws =>
      rcases commandResult_finish result with ⟨rfl, -⟩ | ⟨tag, rfl, command, letters⟩ | ⟨-, -, rfl⟩ |
        ⟨-, -, -, rfl⟩ | ⟨command, -, rfl⟩
      · exact ⟨.inl ⟨rfl, rfl⟩, .inl ⟨rfl, rfl⟩⟩
      · exact ⟨.inr ⟨command, rfl, rfl, (allAlpha_iff tag).1 letters⟩, .inl ⟨rfl, rfl⟩⟩
      · exact ⟨.inl ⟨rfl, rfl⟩, .inl ⟨rfl, rfl⟩⟩
      · exact ⟨.inl ⟨rfl, rfl⟩, .inl ⟨rfl, rfl⟩⟩
      · exact ⟨.inl ⟨rfl, rfl⟩, .inr ⟨command, rfl, rfl⟩⟩
  · obtain rfl : performAccess a s = t := by simpa [hexec] using ht
    obtain ⟨tBytes, tValid, -, -, -, -, outLen, -, obuf, -⟩ := performAccess_keeps a s
    exact ⟨.inl ⟨tBytes, tValid⟩, .inl ⟨outLen, obuf⟩⟩

/-- A transaction is no command, so it has no operands. -/
theorem command_of_operandsAgree {i : Instr} {s s' : State} (h : operandsAgree i s s') :
    ∃ w, encode i = .command w := by
  cases i with
  | nop | tagFromBytes | tagFromText | chunkNew | chunkSerialize | chunkParse | chunkTextCheck
  | illegal => exact ⟨_, rfl⟩
  | _ => exact h.elim

/-- What a finished command writes is its result's, whatever the state it is written to. -/
theorem complete_resultsAgree {i : Instr} {s s' u : State} {ws : Writes}
    (result : commandResult i u = some (.finish ws)) :
    resultsAgree i (complete (.finish ws) s) (complete (.finish ws) s') := by
  rcases commandResult_finish result with ⟨rfl, rfl | rfl⟩ | ⟨tag, rfl, rfl | rfl, -⟩ | ⟨rfl, -, rfl⟩ |
    ⟨rfl, -, -, rfl⟩ | ⟨rfl, -, rfl⟩
  · trivial
  · trivial
  · exact ⟨rfl, rfl⟩
  · exact ⟨rfl, rfl⟩
  · exact ⟨rfl, rfl, rfl, rfl, rfl⟩
  · exact ⟨rfl, rfl, rfl, rfl, rfl⟩
  · exact ⟨rfl, rfl⟩

/-- The error registers after a completion are its result's. -/
theorem complete_errors_congr (r : CmdResult) (s s' : State) :
    (complete r s).errCode = (complete r s').errCode ∧
    (complete r s).errInfo0 = (complete r s').errInfo0 ∧
    (complete r s).errInfo1 = (complete r s').errInfo1 := by
  cases r <;> exact ⟨rfl, rfl, rfl⟩

/-- Settles O59: states that agree on the operands give one result, which alone decides what is written. -/
theorem commandsDependOnTheirOperandsOnly : Obligations.CommandsDependOnTheirOperandsOnly := by
  unfold Obligations.CommandsDependOnTheirOperandsOnly
  intro i s s' t t' agree ht ht'
  obtain ⟨w, command⟩ := command_of_operandsAgree agree
  obtain ⟨r, result, hexec⟩ := exec_command command s
  obtain ⟨r', result', hexec'⟩ := exec_command command s'
  obtain rfl : r' = r := by simpa [result, result'] using commandResult_congr agree
  obtain rfl : complete r' s = t := by simpa [hexec] using ht
  obtain rfl : complete r' s' = t' := by simpa [hexec'] using ht'
  obtain ⟨code, info0, info1⟩ := complete_errors_congr r' s s'
  refine ⟨code, info0, info1, fun ok => ?_⟩
  obtain ⟨ws, rfl⟩ := (complete_errCode_zero _ _).1 ok
  exact complete_resultsAgree result

/-! ### Transactions -/

/-- Two well-formed instructions with one encoding are the same. -/
theorem encode_injective {i j : Instr} (hi : i.wf = true) (hj : j.wf = true)
    (h : encode i = encode j) : i = j := by
  have decoded := decode_encode hi
  rw [h, decode_encode hj] at decoded
  exact (Except.ok.inj decoded).symm

/-- What the rows of the port can change, and which row changes it. -/
theorem performAccess_row_cases {i : Instr} {a : Access} (h : encode i = .access a) (s : State) :
    (∃ rep d, performAccess a s = { s with reply := rep, draws := d }) ∨
    performAccess a s = s.setOvr ∨
    (s.Idle ∧
      ((∃ w, i = .writeCmd w ∧ performAccess a s = s.accept w) ∨
       (∃ v, i = .writeTagIn v ∧ performAccess a s = { s with tagIn := v }) ∨
       (∃ v, i = .writeInLen v ∧ performAccess a s = { s with inLen := s.clampLen v }) ∨
       (∃ k b, i = .writeIbuf k b ∧ k < s.ibufSize ∧
        performAccess a s = { s with ibuf := Memory.write s.ibuf k b }))) := by
  have row {j : Instr} (hj : j.wf = true) (e : encode j = .access a) : i = j :=
    encode_injective (wf_of_encode_access h) hj (h.trans e.symm)
  cases a with
  | regRead off width view =>
    obtain ⟨v, d, e⟩ := hostRegRead_frame off width view s
    exact .inl ⟨_, _, e⟩
  | bufRead sp k =>
    obtain ⟨b, d, e⟩ := hostBufRead_frame sp k s
    exact .inl ⟨_, _, e⟩
  | regWrite off width v =>
    rcases regWrite_cases off width v s with e | ⟨-, -, e⟩ |
      ⟨hr, hb, rfl, ⟨rfl, e⟩ | ⟨rfl, e⟩ | ⟨rfl, e⟩⟩
    · exact .inl ⟨s.reply, s.draws, e⟩
    · exact .inr (.inl e)
    · exact .inr (.inr ⟨⟨hr, hb⟩, .inl ⟨v, row rfl rfl, e⟩⟩)
    · exact .inr (.inr ⟨⟨hr, hb⟩, .inr (.inl ⟨v, row rfl rfl, e⟩)⟩)
    · exact .inr (.inr ⟨⟨hr, hb⟩, .inr (.inr (.inl ⟨v, row rfl rfl, e⟩))⟩)
  | bufWrite sp k b =>
    rcases bufWrite_cases sp k b s with e | ⟨-, -, e⟩ | ⟨hr, hb, rfl, inRange, e⟩
    · exact .inl ⟨s.reply, s.draws, e⟩
    · exact .inr (.inl e)
    · exact .inr (.inr ⟨⟨hr, hb⟩, .inr (.inr (.inr ⟨k, b, row rfl rfl, inRange, e⟩))⟩)

/-- Settles O57: no completion writes an input, and of the rows of the port each input is written by its
own, from an idle block. -/
theorem onlyTheHostWritesTheInputs : Obligations.OnlyTheHostWritesTheInputs := by
  unfold Obligations.OnlyTheHostWritesTheInputs
  intro i s t ht
  rcases exec_cases i s with ⟨_, r, -, -, hexec⟩ | ⟨a, ha, hexec⟩
  · obtain rfl : complete r s = t := by simpa [hexec] using ht
    obtain ⟨tagIn, inLen, size, ibuf, -⟩ := complete_frame r s
    exact ⟨size, .inl tagIn, .inl inLen, .inl ibuf⟩
  · obtain rfl : performAccess a s = t := by simpa [hexec] using ht
    rcases performAccess_row_cases ha s with ⟨_, _, e⟩ | e |
      ⟨idle, ⟨w, rfl, e⟩ | ⟨v, rfl, e⟩ | ⟨v, rfl, e⟩ | ⟨k, b, rfl, inRange, e⟩⟩ <;> rw [e]
    · exact ⟨rfl, .inl rfl, .inl rfl, .inl rfl⟩
    · exact ⟨rfl, .inl rfl, .inl rfl, .inl rfl⟩
    · exact ⟨rfl, .inl rfl, .inl rfl, .inl rfl⟩
    · exact ⟨rfl, .inr ⟨v, rfl, idle, rfl⟩, .inl rfl, .inl rfl⟩
    · exact ⟨rfl, .inl rfl, .inr ⟨v, rfl, idle, clampLen_toNat s v⟩, .inl rfl⟩
    · exact ⟨rfl, .inl rfl, .inl rfl, .inr ⟨k, b, rfl, idle, inRange, byteAt_write s k b⟩⟩

/-- Settles O58: of the rows of the port only WRITE_CMD, from an idle block, changes what is running or
a field of STATUS other than OVR. -/
theorem onlyAcceptanceStartsACommand : Obligations.OnlyAcceptanceStartsACommand := by
  unfold Obligations.OnlyAcceptanceStartsACommand
  intro i a s t ha ht
  obtain rfl : performAccess a s = t := by simpa [exec_access ha s] using ht
  rcases performAccess_row_cases ha s with ⟨_, _, e⟩ | e |
    ⟨idle, ⟨w, rfl, e⟩ | ⟨v, -, e⟩ | ⟨v, -, e⟩ | ⟨k, b, -, -, e⟩⟩ <;> rw [e]
  · exact .inl ⟨rfl, rfl, rfl, rfl⟩
  · exact .inl ⟨rfl, rfl, rfl, rfl⟩
  · exact .inr ⟨w, rfl, idle, rfl, rfl⟩
  · exact .inl ⟨rfl, rfl, rfl, rfl⟩
  · exact .inl ⟨rfl, rfl, rfl, rfl⟩
  · exact .inl ⟨rfl, rfl, rfl, rfl⟩

end Sys2Proof.Machine
end
